-- ==== Sys2Proof/Word.lean ====
section
/-! DEFINITION. The word types of the command interface and of the text port (10_state.md R30). -/

namespace Sys2Proof

/-- One character on the text port (R13, R30). -/
abbrev Byte := BitVec 8

/-- The 32-bit command word presented on `cmd` (R41). -/
abbrev CommandWord := BitVec 32

/-- A value register number, 0 to 15: all sixteen exist (R18, R45). -/
abbrev RegNum := Fin 16

end Sys2Proof
end

