-- ==== Sys2Proof/Syntax.lean ====
section
/-! DEFINITION. The command word cut into its fields (30_encoding.md R42) and the fourteen commands (R46). -/

namespace Sys2Proof

/-- The six fields of a command word, at fixed positions in every format (R42). -/
structure Fields where
  /-- Bits 31:24, the operation code. -/
  op : BitVec 8
  /-- Bits 23:20, the destination register number. -/
  vd : BitVec 4
  /-- Bits 19:16, the first source register number. -/
  va : BitVec 4
  /-- Bits 15:12, the second source register number. -/
  vb : BitVec 4
  /-- Bits 11:8, reserved, zero in every command. -/
  rsv : BitVec 4
  /-- Bits 7:0, the fractional-bit count immediate (R44). -/
  imm8 : BitVec 8
  deriving DecidableEq, Repr

/-- The fourteen commands with their operands (R43, R46). `LOAD`'s data operand is not in the word: it is the port
`wdata`, held in State (R50). -/
inductive Instr where
  | load (vd : RegNum) (imm8 : BitVec 8)
  | rescale (vd va : RegNum) (imm8 : BitVec 8)
  | add (vd va vb : RegNum)
  | sub (vd va vb : RegNum)
  | mul (vd va vb : RegNum)
  | div (vd va vb : RegNum)
  | cmpeq (va vb : RegNum)
  | cmpne (va vb : RegNum)
  | rdraw (va : RegNum)
  | rdfb (va : RegNum)
  | ipart (va : RegNum)
  | fpart (va : RegNum)
  | totext (va : RegNum)
  | rdstat
  deriving DecidableEq, Repr

/-- The mnemonic of a command as the opcode map writes it (R46). -/
def Instr.mnemonic : Instr → String
  | .load _ _ => "LOAD"
  | .rescale _ _ _ => "RESCALE"
  | .add _ _ _ => "ADD"
  | .sub _ _ _ => "SUB"
  | .mul _ _ _ => "MUL"
  | .div _ _ _ => "DIV"
  | .cmpeq _ _ => "CMPEQ"
  | .cmpne _ _ => "CMPNE"
  | .rdraw _ => "RDRAW"
  | .rdfb _ => "RDFB"
  | .ipart _ => "IPART"
  | .fpart _ => "FPART"
  | .totext _ => "TOTEXT"
  | .rdstat => "RDSTAT"

/-- The source registers a command names, in the order their validity is checked: `va`, then `vb` (R20, R53). -/
def Instr.sources : Instr → List RegNum
  | .load _ _ => []
  | .rescale _ va _ => [va]
  | .add _ va vb => [va, vb]
  | .sub _ va vb => [va, vb]
  | .mul _ va vb => [va, vb]
  | .div _ va vb => [va, vb]
  | .cmpeq va vb => [va, vb]
  | .cmpne va vb => [va, vb]
  | .rdraw va => [va]
  | .rdfb va => [va]
  | .ipart va => [va]
  | .fpart va => [va]
  | .totext va => [va]
  | .rdstat => []

/-- The destination register a command names, if its format has one (R20, R43). -/
def Instr.dest : Instr → Option RegNum
  | .load vd _ => some vd
  | .rescale vd _ _ => some vd
  | .add vd _ _ => some vd
  | .sub vd _ _ => some vd
  | .mul vd _ _ => some vd
  | .div vd _ _ => some vd
  | .cmpeq _ _ => none
  | .cmpne _ _ => none
  | .rdraw _ => none
  | .rdfb _ => none
  | .ipart _ => none
  | .fpart _ => none
  | .totext _ => none
  | .rdstat => none

end Sys2Proof
end

