-- ==== Sys2Proof/WellFormed.lean ====
section
/-! DEFINITION. Which command words are well formed, by the three checks of 30_encoding.md R48: the operation code is
assigned, the reserved field is zero, every field the format does not use is zero.
An `Instr` needs no check of its own: its operands' types admit exactly the operands of R44 and R45. -/

namespace Sys2Proof

/-- The six formats (R43). -/
inductive Format where
  /-- load: `vd`, `imm8` -/
  | L
  /-- scale: `vd`, `va`, `imm8` -/
  | S
  /-- three-register: `vd`, `va`, `vb` -/
  | R
  /-- compare: `va`, `vb` -/
  | C
  /-- unary read: `va` -/
  | U
  /-- no operand -/
  | Z
  deriving DecidableEq, Repr

/-- The opcode map's assigned operation codes with their formats (R46). -/
def opFormats : List (BitVec 8 × Format) :=
  [(0x01#8, .L), (0x02#8, .S), (0x10#8, .R), (0x11#8, .R), (0x12#8, .R), (0x13#8, .R), (0x20#8, .C),
   (0x21#8, .C), (0x30#8, .U), (0x31#8, .U), (0x32#8, .U), (0x33#8, .U), (0x40#8, .U), (0x50#8, .Z)]

/-- The format of an operation code, none where it is unassigned (R46, R48 (a)). -/
def formatOf (op : BitVec 8) : Option Format := opFormats.lookup op

/-- Every field the format does not use is zero (R43, R48 (c)); the reserved field has its own check. -/
def Fields.unusedZero (f : Fields) : Format → Bool
  | .L => f.va == 0#4 && f.vb == 0#4
  | .S => f.vb == 0#4
  | .R => f.imm8 == 0#8
  | .C => f.vd == 0#4 && f.imm8 == 0#8
  | .U => f.vd == 0#4 && f.vb == 0#4 && f.imm8 == 0#8
  | .Z => f.vd == 0#4 && f.va == 0#4 && f.vb == 0#4 && f.imm8 == 0#8

/-- A command word's fields are well formed: it is one of the fourteen commands and not illegal (R48). -/
def Fields.wellFormed (f : Fields) : Bool :=
  match formatOf f.op with
  | none => false
  | some fmt => f.rsv == 0#4 && f.unusedZero fmt

end Sys2Proof
end

