-- ==== Sys2Proof/Decode.lean ====
section
/-! DEFINITION. The decoder, total on all command words and rejecting by name (30_encoding.md R47, R48), and after it the
encoder (R51) and the opcode map's match and mask words (R46). -/

namespace Sys2Proof

/-- Why a command word is illegal: the classes (a), (b), (c) of R48. All three are the one fault `IllegalCommand`. -/
inductive IllegalReason where
  /-- (a) the operation code is none of the fourteen. -/
  | unassignedOp
  /-- (b) the reserved field is not zero. -/
  | reservedNotZero
  /-- (c) a field the format does not use is not zero. -/
  | unusedNotZero
  deriving DecidableEq, Repr

/-- The fields of a command word (R42). -/
def fieldsOfWord (c : CommandWord) : Fields where
  op := c.extractLsb' 24 8
  vd := c.extractLsb' 20 4
  va := c.extractLsb' 16 4
  vb := c.extractLsb' 12 4
  rsv := c.extractLsb' 8 4
  imm8 := c.extractLsb' 0 8

/-- A register field selects its register directly (R45). -/
def regOf (x : BitVec 4) : RegNum := x.toFin

/-- The checks (b) and (c) of R48, then the command. -/
def accept (f : Fields) (unusedZero : Bool) (i : Instr) : Except IllegalReason Instr :=
  if f.rsv = 0#4 then
    if unusedZero then .ok i else .error .unusedNotZero
  else .error .reservedNotZero

/-- The command a word's fields stand for (R43, R46, R48). -/
def decodeFields (f : Fields) : Except IllegalReason Instr :=
  if f.op = 0x01#8 then accept f (f.va == 0#4 && f.vb == 0#4) (.load (regOf f.vd) f.imm8)
  else if f.op = 0x02#8 then accept f (f.vb == 0#4) (.rescale (regOf f.vd) (regOf f.va) f.imm8)
  else if f.op = 0x10#8 then accept f (f.imm8 == 0#8) (.add (regOf f.vd) (regOf f.va) (regOf f.vb))
  else if f.op = 0x11#8 then accept f (f.imm8 == 0#8) (.sub (regOf f.vd) (regOf f.va) (regOf f.vb))
  else if f.op = 0x12#8 then accept f (f.imm8 == 0#8) (.mul (regOf f.vd) (regOf f.va) (regOf f.vb))
  else if f.op = 0x13#8 then accept f (f.imm8 == 0#8) (.div (regOf f.vd) (regOf f.va) (regOf f.vb))
  else if f.op = 0x20#8 then accept f (f.vd == 0#4 && f.imm8 == 0#8) (.cmpeq (regOf f.va) (regOf f.vb))
  else if f.op = 0x21#8 then accept f (f.vd == 0#4 && f.imm8 == 0#8) (.cmpne (regOf f.va) (regOf f.vb))
  else if f.op = 0x30#8 then accept f (f.vd == 0#4 && f.vb == 0#4 && f.imm8 == 0#8) (.rdraw (regOf f.va))
  else if f.op = 0x31#8 then accept f (f.vd == 0#4 && f.vb == 0#4 && f.imm8 == 0#8) (.rdfb (regOf f.va))
  else if f.op = 0x32#8 then accept f (f.vd == 0#4 && f.vb == 0#4 && f.imm8 == 0#8) (.ipart (regOf f.va))
  else if f.op = 0x33#8 then accept f (f.vd == 0#4 && f.vb == 0#4 && f.imm8 == 0#8) (.fpart (regOf f.va))
  else if f.op = 0x40#8 then accept f (f.vd == 0#4 && f.vb == 0#4 && f.imm8 == 0#8) (.totext (regOf f.va))
  else if f.op = 0x50#8 then accept f (f.vd == 0#4 && f.va == 0#4 && f.vb == 0#4 && f.imm8 == 0#8) .rdstat
  else .error .unassignedOp

/-- `decode` of R47: a function of the command word alone, total on all 2^32 words. -/
def decode (c : CommandWord) : Except IllegalReason Instr := decodeFields (fieldsOfWord c)

/-- The instruction the decoder reads from a table word of `nbits` bits; the unit's command word is one 32-bit parallel
word, so there is no byte order to lay it out in (R32, R49). -/
def decodeTableWord (nbits w : Nat) : Option Instr :=
  match decode (BitVec.ofNat 32 (w % 2 ^ nbits)) with
  | .ok i => some i
  | .error _ => none

/-- A register number as a field of the word (R45). -/
def fieldOfReg (r : RegNum) : BitVec 4 := BitVec.ofFin r

/-- The fields a command is written as, every unused field zero (R46, R51). -/
def fieldsOfInstr : Instr → Fields
  | .load vd imm8 => ⟨0x01#8, fieldOfReg vd, 0, 0, 0, imm8⟩
  | .rescale vd va imm8 => ⟨0x02#8, fieldOfReg vd, fieldOfReg va, 0, 0, imm8⟩
  | .add vd va vb => ⟨0x10#8, fieldOfReg vd, fieldOfReg va, fieldOfReg vb, 0, 0⟩
  | .sub vd va vb => ⟨0x11#8, fieldOfReg vd, fieldOfReg va, fieldOfReg vb, 0, 0⟩
  | .mul vd va vb => ⟨0x12#8, fieldOfReg vd, fieldOfReg va, fieldOfReg vb, 0, 0⟩
  | .div vd va vb => ⟨0x13#8, fieldOfReg vd, fieldOfReg va, fieldOfReg vb, 0, 0⟩
  | .cmpeq va vb => ⟨0x20#8, 0, fieldOfReg va, fieldOfReg vb, 0, 0⟩
  | .cmpne va vb => ⟨0x21#8, 0, fieldOfReg va, fieldOfReg vb, 0, 0⟩
  | .rdraw va => ⟨0x30#8, 0, fieldOfReg va, 0, 0, 0⟩
  | .rdfb va => ⟨0x31#8, 0, fieldOfReg va, 0, 0, 0⟩
  | .ipart va => ⟨0x32#8, 0, fieldOfReg va, 0, 0, 0⟩
  | .fpart va => ⟨0x33#8, 0, fieldOfReg va, 0, 0, 0⟩
  | .totext va => ⟨0x40#8, 0, fieldOfReg va, 0, 0, 0⟩
  | .rdstat => ⟨0x50#8, 0, 0, 0, 0, 0⟩

/-- The word of six fields, `op` in the high bits (R42). -/
def wordOfFields (f : Fields) : CommandWord :=
  f.op ++ f.vd ++ f.va ++ f.vb ++ f.rsv ++ f.imm8

/-- The encoding of a command (R51). -/
def encode (i : Instr) : CommandWord := wordOfFields (fieldsOfInstr i)

/-- The opcode map as the spec prints it: mnemonic, match word, mask word (R46). -/
def opcodeMap : List (String × CommandWord × CommandWord) :=
  [("LOAD", 0x01000000#32, 0xFF0FFF00#32),
   ("RESCALE", 0x02000000#32, 0xFF00FF00#32),
   ("ADD", 0x10000000#32, 0xFF000FFF#32),
   ("SUB", 0x11000000#32, 0xFF000FFF#32),
   ("MUL", 0x12000000#32, 0xFF000FFF#32),
   ("DIV", 0x13000000#32, 0xFF000FFF#32),
   ("CMPEQ", 0x20000000#32, 0xFFF00FFF#32),
   ("CMPNE", 0x21000000#32, 0xFFF00FFF#32),
   ("RDRAW", 0x30000000#32, 0xFFF0FFFF#32),
   ("RDFB", 0x31000000#32, 0xFFF0FFFF#32),
   ("IPART", 0x32000000#32, 0xFFF0FFFF#32),
   ("FPART", 0x33000000#32, 0xFFF0FFFF#32),
   ("TOTEXT", 0x40000000#32, 0xFFF0FFFF#32),
   ("RDSTAT", 0x50000000#32, 0xFFFFFFFF#32)]

end Sys2Proof
end

