-- ==== Sys2Proof/Config.lean ====
section
/-! DEFINITION. The one implementation parameter of the unit: its storage width `W` (00_scope.md R5).
The spec leaves no value free: every result it does not take from the source document it decides by a rule (R7, R75, R59),
so this file declares no free value. -/

namespace Sys2Proof

/-- The storage widths a unit can be built with; no other width can be named, which is how the model refuses to
instantiate one (R5). -/
inductive Width where
  | w8
  | w16
  | w32
  | w64
  deriving DecidableEq, Repr

/-- `W`, the storage width in bits (R5). -/
def Width.bits : Width → Nat
  | .w8 => 8
  | .w16 => 16
  | .w32 => 32
  | .w64 => 64

end Sys2Proof
end

