-- ==== Sys2Proof/Machine/State.lean ====
section
/-! DEFINITION. The state of one unit (10_state.md R17 to R30), the reasons a step could stop, and the state after reset. -/

namespace Sys2Proof.Machine

/-- One value register: a tagged numeric value, or none while `valid` is 0 (R18). -/
structure ValueReg (W : Width) where
  /-- 1 once a command has written the register since reset. -/
  valid : Bool
  /-- The fractional-bit count of the value. -/
  fb : BitVec 6
  /-- The two's-complement scaled integer, all `W` bits. -/
  raw : BitVec W.bits
  deriving DecidableEq, Repr

/-- `STATUS` (R21). Its reserved bits 3:1 are hard-wired to zero, so they have no storage: `StatusReg.read` supplies them. -/
structure StatusReg where
  /-- Bit 0, the compare flag (R24). -/
  t : Bool
  /-- Bits 7:4, the fault latch (R94). -/
  cause : BitVec 4
  deriving DecidableEq, Repr

/-- One response of the unit (R54). -/
structure Response (W : Width) where
  /-- 0 when the command completed, else the fault code in `STATUS.CAUSE`. -/
  status : BitVec 4
  /-- The read result, or zero. -/
  rdata : BitVec W.bits
  deriving DecidableEq, Repr

/-- One thing the host does to the unit: it asserts `rst`, or it presents a command with its data operand (R41, R111, R120). -/
inductive HostEvent (W : Width) where
  | rst
  | command (cmd : CommandWord) (wdata : BitVec W.bits)
  deriving DecidableEq, Repr

/-- A unit of width `W`: its registers, its observable traces and its ports at transaction level, and what the host will do
to it next. -/
structure Fxu (W : Width) where
  /-- `v0` to `v15` (R18). -/
  regs : Vector (ValueReg W) 16
  /-- The only control and status register (R21). -/
  status : StatusReg
  /-- `TXS`: the bytes emitted on the text port since the last reset, oldest first (R22). -/
  txs : List Byte
  /-- The command word the host presents (R30, R41). -/
  cmd : CommandWord
  /-- The data operand presented with it (R30, R50). -/
  wdata : BitVec W.bits
  /-- The responses returned since the last reset, oldest first: the model's trace of the response ports (R30, R54). -/
  responses : List (Response W)
  /-- What the host will do next, oldest first: the model's own field, outside the unit (R29, R119). -/
  pending : List (HostEvent W)
  deriving DecidableEq, Repr

/-- The machine: a storage width, which no step changes (R5), and a unit of that width. -/
structure State where
  width : Width
  fxu : Fxu width
  deriving DecidableEq, Repr

/-- The reasons a step stops with a fault of the model. There is none: the unit's own faults are next states, latched in
`STATUS.CAUSE` (R101), and a step of the unit is a total function (R117, R119). Nobody raises one: safe. -/
inductive Fault where
  deriving DecidableEq, Repr

/-- The reasons a step is refused. -/
inductive Refusal where
  /-- An instruction with no meaning yet; raised by a refused arm of `exec` only, and no arm is refused. Safe: nothing is
  claimed of such an instruction. -/
  | notModelled (mnemonic : String)
  deriving DecidableEq, Repr

/-- The unit right after reset (R28, R111): every register invalid, `STATUS` zero, `TXS` empty.
DESIGN CHOICE (log 3): `fb` and `raw`, which the spec leaves unspecified, are 0.
DESIGN CHOICE (log 1, 4, 5): the ports are 0, no response has been returned, the host presents nothing. -/
def Fxu.afterReset (W : Width) : Fxu W where
  regs := Vector.replicate 16 ⟨false, 0, 0⟩
  status := ⟨false, 0⟩
  txs := []
  cmd := 0
  wdata := 0
  responses := []
  pending := []

/-- The machine right after reset at any width (R28, R112). -/
def State.resetAt (W : Width) : State := ⟨W, Fxu.afterReset W⟩

/-- The machine right after reset. DESIGN CHOICE (log 2): the width of this one is 32, that of the spec's examples (R5). -/
def State.reset : State := State.resetAt .w32

end Sys2Proof.Machine
end

