-- ==== Sys2Proof/Machine/Ops.lean ====
section
/-! DEFINITION. The named operations over the unit: reading and writing a value register (00_scope.md R14), emitting text
and responding (R16), taking a fault (60_exceptions.md R101), the refusal of a faulted unit (R102), reset, the only way back
from a fault (R104, R111), and taking the host's next command (R41). -/

namespace Sys2Proof.Machine

/-- The six faults of the unit (R94). -/
inductive Cause where
  | illegalCommand
  | invalidOperand
  | configError
  | domainError
  | typeMismatch
  | rescaleDown
  deriving DecidableEq, Repr

/-- The code a fault latches in `STATUS.CAUSE` and returns as `status` (R94). -/
def Cause.code : Cause → BitVec 4
  | .illegalCommand => 1
  | .invalidOperand => 2
  | .configError => 3
  | .domainError => 4
  | .typeMismatch => 5
  | .rescaleDown => 6

variable {W : Width}

/-- A register's fractional-bit count as a number (R6, R18). -/
def ValueReg.tag (v : ValueReg W) : Nat := v.fb.toNat

/-- Value register `r` (R14). -/
def Fxu.reg (u : Fxu W) (r : RegNum) : ValueReg W := u.regs[r]

/-- `v[r] <- (raw, fb)`: all three fields at once (R14). -/
def Fxu.writeValue (u : Fxu W) (r : RegNum) (raw : BitVec W.bits) (fb : Nat) : Fxu W :=
  { u with regs := u.regs.set r ⟨true, BitVec.ofNat 6 fb, raw⟩ }

/-- `emit(str)`: append to the text stream, first character first (R16, R22). -/
def Fxu.emit (u : Fxu W) (str : List Byte) : Fxu W := { u with txs := u.txs ++ str }

/-- Return one response (R54). -/
def Fxu.reply (u : Fxu W) (status : BitVec 4) (rdata : BitVec W.bits) : Fxu W :=
  { u with responses := u.responses ++ [⟨status, rdata⟩] }

/-- `respond(data)`: end a command that did not fault (R16). -/
def Fxu.respond (u : Fxu W) (rdata : BitVec W.bits) : Fxu W := u.reply 0 rdata

/-- `raise <Fault>`: fault entry (R101). The code is latched and returned; nothing else changes. -/
def Fxu.raise (u : Fxu W) (c : Cause) : Fxu W :=
  Fxu.reply { u with status := { u.status with cause := c.code } } c.code 0

/-- The unit is in the faulted state (R102); this is also the level of the `fault` output (R105). -/
def Fxu.faulted (u : Fxu W) : Bool := u.status.cause != 0

/-- A command presented to a faulted unit: refused with the latched code, nothing else changes (R102). -/
def Fxu.refuse (u : Fxu W) : Fxu W := u.reply u.status.cause 0

/-- `(raw, fb) = v[r]`: `InvalidOperand` when the register holds no value, and then nothing else of the command happens
(R14, R96). -/
def Fxu.withSource (u : Fxu W) (r : RegNum) (k : BitVec W.bits → Nat → Fxu W) : Fxu W :=
  if (u.reg r).valid then k (u.reg r).raw (u.reg r).tag else u.raise .invalidOperand

/-- One command on the machine: refused when the unit is faulted (step 1 of R53, R102), else what the command does. -/
def State.command (s : State) (k : (W : Width) → Fxu W → Fxu W) : Host.Outcome State Fault Refusal :=
  .next ⟨s.width, if s.fxu.faulted then s.fxu.refuse else k s.width s.fxu⟩

/-- A command word that decodes to nothing: `IllegalCommand` (R48, R95). -/
def illegalCommand (s : State) : Host.Outcome State Fault Refusal :=
  s.command fun _ u => u.raise .illegalCommand

/-- Reset (R111): the state of R28, whatever the unit was doing; the host's further commands are the host's. -/
def Fxu.rst (u : Fxu W) : Fxu W := { Fxu.afterReset W with pending := u.pending }

/-- What the host's next act asks of a step. -/
inductive Fetched where
  /-- Nothing is to be executed: the step leaves this state. -/
  | done (s : State)
  /-- The presented word is this instruction. -/
  | run (i : Instr) (s : State)
  /-- The presented word is illegal. -/
  | illegal (why : IllegalReason) (s : State)

/-- The host presents a command: the word and the data operand stand on the ports (R41). -/
def Fxu.present (u : Fxu W) (cmd : CommandWord) (wdata : BitVec W.bits) (rest : List (HostEvent W)) : Fxu W :=
  { u with cmd := cmd, wdata := wdata, pending := rest }

/-- Decode the word on the command port (R47); a faulted unit's answer does not depend on it (R102). -/
def decodePresented (s : State) : Fetched :=
  match decode s.fxu.cmd with
  | .ok i => .run i s
  | .error why => .illegal why s

/-- Take the host's next act, in the order it presents them (R37, R111, R119).
DESIGN CHOICE (log 6): when the host presents nothing, the unit stays as it is (R121). -/
def fetch (s : State) : Fetched :=
  match s.fxu.pending with
  | [] => .done s
  | .rst :: rest => .done ⟨s.width, Fxu.rst { s.fxu with pending := rest }⟩
  | .command cmd wdata :: rest => decodePresented ⟨s.width, s.fxu.present cmd wdata rest⟩

/-- The host presents one more command ahead of all others. -/
def State.presentNext (s : State) (cmd : CommandWord) (wdata : BitVec s.width.bits) : State :=
  ⟨s.width, { s.fxu with pending := .command cmd wdata :: s.fxu.pending }⟩

end Sys2Proof.Machine
end

