-- ==== Sys2Proof/Machine/Operands.lean ====
section
/-! DEFINITION. The arithmetic the commands are written with: exact integers, narrowed by `wrapW` (00_scope.md R7, R10), the
shifts (R11), the truncating quotient (R12), the alignment shift (41_rescale.md R62), the magnitude
(40_construct_access.md R59). -/

namespace Sys2Proof.Machine

variable {w : Nat}

/-- `wrap_W(n)`: the low `w` bits of an integer (R7, R10). -/
def wrapW (w : Nat) (n : Int) : BitVec w := BitVec.ofInt w n

/-- `lsl(x, n)`: zeros enter at bit 0, bits leaving the top are lost (R11). -/
def lsl (x : BitVec w) (n : Nat) : BitVec w := wrapW w (x.toNat * 2 ^ n)

/-- `asr(x, n)`: the mathematical floor of `s(x) / 2^n` (R11). Lean's integer division rounds down for a positive divisor. -/
def asr (x : BitVec w) (n : Nat) : Int := x.toInt / 2 ^ n

/-- `tdiv(a, b)`: the quotient rounded toward zero (R12). -/
def tdiv (a b : Int) : Int := a.tdiv b

/-- `rescale_up(raw, from, to)`: the barrel shifter (R62). -/
def rescaleUp (raw : BitVec w) (from_ to_ : Nat) : BitVec w := lsl raw (to_ - from_)

/-- `mag(raw)`: the absolute value of the signed reading, at most `2^(W-1)` (R59). -/
def mag (raw : BitVec w) : Nat := raw.toInt.natAbs

/-- A fault where a tag would leave `0 .. W-1`: the immediate of `LOAD` and `RESCALE` (R44, R97). -/
def immOutOfRange (W : Width) (imm8 : BitVec 8) : Bool := W.bits ≤ imm8.toNat

end Sys2Proof.Machine
end

