-- ==== Sys2Proof/Machine/Access.lean ====
section
/-! DEFINITION. Construction and accessors: `LOAD`, `RDRAW`, `RDFB`, `IPART`, `FPART` (40_construct_access.md R55 to R61). -/

namespace Sys2Proof.Machine

/-- `LOAD vd, #fb, data` (R55). -/
def execLoad (vd : RegNum) (imm8 : BitVec 8) (s : State) : Host.Outcome State Fault Refusal :=
  s.command fun W u =>
    if immOutOfRange W imm8 then u.raise .configError
    else (u.writeValue vd u.wdata imm8.toNat).respond 0

/-- `RDRAW va` (R56). -/
def execRdraw (va : RegNum) (s : State) : Host.Outcome State Fault Refusal :=
  s.command fun _ u => u.withSource va fun raw _ => u.respond raw

/-- `RDFB va` (R57). -/
def execRdfb (va : RegNum) (s : State) : Host.Outcome State Fault Refusal :=
  s.command fun W u => u.withSource va fun _ fb => u.respond (wrapW W.bits fb)

/-- `IPART va`: the magnitude without its low `fb` bits (R60). -/
def execIpart (va : RegNum) (s : State) : Host.Outcome State Fault Refusal :=
  s.command fun W u => u.withSource va fun raw fb => u.respond (wrapW W.bits (mag raw / 2 ^ fb))

/-- `FPART va`: the low `fb` bits of the magnitude (R61, conflict C2). -/
def execFpart (va : RegNum) (s : State) : Host.Outcome State Fault Refusal :=
  s.command fun W u => u.withSource va fun raw fb => u.respond (wrapW W.bits (mag raw % 2 ^ fb))

end Sys2Proof.Machine
end

