-- ==== Sys2Proof/Machine/AddSub.lean ====
section
/-! DEFINITION. The adder/subtractor with radix-point alignment: `ADD`, `SUB` (42_addsub.md R66 to R68). -/

namespace Sys2Proof.Machine

/-- Read both operands, align them to the larger fractional-bit count, combine them exactly and narrow the result (R66). -/
def Fxu.aligned {W : Width} (u : Fxu W) (vd va vb : RegNum) (combine : Int → Int → Int) : Fxu W :=
  u.withSource va fun rawA fa =>
    u.withSource vb fun rawB fb =>
      let rf := max fa fb
      let a := rescaleUp rawA fa rf
      let b := rescaleUp rawB fb rf
      (u.writeValue vd (wrapW W.bits (combine a.toInt b.toInt)) rf).respond 0

/-- `ADD vd, va, vb` (R67). -/
def execAdd (vd va vb : RegNum) (s : State) : Host.Outcome State Fault Refusal :=
  s.command fun _ u => u.aligned vd va vb fun a b => a + b

/-- `SUB vd, va, vb`: `va` is the minuend (R68). -/
def execSub (vd va vb : RegNum) (s : State) : Host.Outcome State Fault Refusal :=
  s.command fun _ u => u.aligned vd va vb fun a b => a - b

end Sys2Proof.Machine
end

