-- ==== Sys2Proof/Machine/Flags.lean ====
section
/-! DEFINITION. The flag `T` and the reading of `STATUS` (10_state.md R21, R24; 44_compare.md R77, R78). -/

namespace Sys2Proof.Machine

variable {W : Width}

/-- `STATUS` as `RDSTAT` reads it: `CAUSE` in bits 7:4, zero in 3:1, `T` in bit 0 (R21, R79). -/
def StatusReg.read (st : StatusReg) : BitVec 8 := st.cause ++ 0#3 ++ BitVec.ofBool st.t

/-- `STATUS.T <- t` (R14). -/
def Fxu.setT (u : Fxu W) (t : Bool) : Fxu W := { u with status := { u.status with t := t } }

/-- A flag bit zero-extended to `W` bits, as a compare returns it (R54). -/
def flagWord (W : Width) (t : Bool) : BitVec W.bits := (BitVec.ofBool t).setWidth W.bits

/-- `T` of `CMPEQ`: all `W` bits compared (R77). -/
def rawEqual (a b : BitVec W.bits) : Bool := decide (a = b)

/-- `T` of `CMPNE` (R78). -/
def rawUnequal (a b : BitVec W.bits) : Bool := decide (a ≠ b)

end Sys2Proof.Machine
end

