-- ==== Sys2Proof/Machine/Compare.lean ====
section
/-! DEFINITION. The comparators and the status read: `CMPEQ`, `CMPNE`, `RDSTAT` (44_compare.md R76 to R79). -/

namespace Sys2Proof.Machine

/-- Compare two values of the same type, write `T` and return it; `TypeMismatch` when the tags differ (R76). -/
def Fxu.compare {W : Width} (u : Fxu W) (va vb : RegNum) (test : BitVec W.bits → BitVec W.bits → Bool) : Fxu W :=
  u.withSource va fun rawA fa =>
    u.withSource vb fun rawB fb =>
      if fa ≠ fb then u.raise .typeMismatch
      else (u.setT (test rawA rawB)).respond (flagWord W (test rawA rawB))

/-- `CMPEQ va, vb` (R77). -/
def execCmpeq (va vb : RegNum) (s : State) : Host.Outcome State Fault Refusal :=
  s.command fun _ u => u.compare va vb rawEqual

/-- `CMPNE va, vb` (R78). -/
def execCmpne (va vb : RegNum) (s : State) : Host.Outcome State Fault Refusal :=
  s.command fun _ u => u.compare va vb rawUnequal

/-- `RDSTAT` (R79). -/
def execRdstat (s : State) : Host.Outcome State Fault Refusal :=
  s.command fun W u => u.respond (u.status.read.setWidth W.bits)

end Sys2Proof.Machine
end

