-- ==== Sys2Proof/Machine/MulDiv.lean ====
section
/-! DEFINITION. The multiplier and the divider: `MUL`, `DIV` (43_muldiv.md R70 to R75). -/

namespace Sys2Proof.Machine

/-- `MUL vd, va, vb`: the tags add, the product is not shifted (R70, R71, conflict C1). -/
def execMul (vd va vb : RegNum) (s : State) : Host.Outcome State Fault Refusal :=
  s.command fun W u =>
    u.withSource va fun rawA fa =>
      u.withSource vb fun rawB fb =>
        if W.bits ≤ fa + fb then u.raise .configError
        else (u.writeValue vd (wrapW W.bits (rawA.toInt * rawB.toInt)) (fa + fb)).respond 0

/-- `DIV vd, va, vb`: the tags subtract, the tag check comes before the divisor test (R72 to R75, R103). -/
def execDiv (vd va vb : RegNum) (s : State) : Host.Outcome State Fault Refusal :=
  s.command fun W u =>
    u.withSource va fun rawA fa =>
      u.withSource vb fun rawB fb =>
        if fa < fb then u.raise .configError
        else if rawB = 0#W.bits then u.raise .domainError
        else (u.writeValue vd (wrapW W.bits (tdiv rawA.toInt rawB.toInt)) (fa - fb)).respond 0

end Sys2Proof.Machine
end

