-- ==== Sys2Proof/Machine/Rescale.lean ====
section
/-! DEFINITION. The explicit rescale: `RESCALE` (41_rescale.md R63, R64). -/

namespace Sys2Proof.Machine

/-- `RESCALE vd, va, #fb` (R63): only to as many or more fractional bits (R64). -/
def execRescale (vd va : RegNum) (imm8 : BitVec 8) (s : State) : Host.Outcome State Fault Refusal :=
  s.command fun W u =>
    u.withSource va fun raw f =>
      if immOutOfRange W imm8 then u.raise .configError
      else if imm8.toNat < f then u.raise .rescaleDown
      else (u.writeValue vd (rescaleUp raw f imm8.toNat) imm8.toNat).respond 0

end Sys2Proof.Machine
end

