-- ==== Sys2Proof/Machine/Text.lean ====
section
/-! DEFINITION. The fixed-point-to-text converter: `TOTEXT` (45_text.md R81 to R89), with the decimal numerals of
00_scope.md R13 and the precision scale of R8. -/

namespace Sys2Proof.Machine

/-- `P`, the decimal precision scale: the number of decimal digits of `2^W` (R8). -/
def precision : Width → Nat
  | .w8 => 3
  | .w16 => 5
  | .w32 => 10
  | .w64 => 20

/-- `term(k) = floor(10^P / 2^k)`, the decimal weight of the `k`-th fraction bit (R84, R85). -/
def term (W : Width) (k : Nat) : Nat := 10 ^ precision W / 2 ^ k

/-- `'-'` (R13). -/
def charMinus : Byte := 0x2D#8

/-- `'.'` (R13). -/
def charPoint : Byte := 0x2E#8

/-- The character of a digit 0 to 9 (R13). -/
def charDigit (d : Nat) : Byte := BitVec.ofNat 8 (0x30 + d)

/-- The decimal digits of `n`, most significant first, at most `fuel` of them. -/
def digits : Nat → Nat → List Byte
  | 0, _ => []
  | fuel + 1, n => if n < 10 then [charDigit n] else digits fuel (n / 10) ++ [charDigit (n % 10)]

/-- `dec(n)`: the shortest decimal numeral of `n` (R13). A number has no more decimal digits than binary ones, so the fuel
never runs out. -/
def dec (n : Nat) : List Byte := digits (n.log2 + 1) n

/-- `sdec(n)`: `dec` with a leading `-` for a negative number (R13). -/
def sdec (n : Int) : List Byte := if 0 ≤ n then dec n.natAbs else charMinus :: dec n.natAbs

/-- `neg`: the value is negative (R81). -/
def isNegative {w : Nat} (raw : BitVec w) : Bool := raw.toInt < 0

/-- `ip`: the arithmetic right shift, plus one for a negative value (R83, conflict C3). -/
def integerPortion {w : Nat} (raw : BitVec w) (fb : Nat) : Int := asr raw fb + if isNegative raw then 1 else 0

/-- Whether fraction bit `i` contributes: a set bit of a non-negative value, a clear bit of a negative one (R84). -/
def contributes {w : Nat} (raw : BitVec w) (i : Nat) : Bool := if isNegative raw then !raw.getLsbD i else raw.getLsbD i

/-- The accumulator after bits `0` to `n - 1` have been scanned, least significant first (R84). -/
def scan (W : Width) (raw : BitVec W.bits) (fb : Nat) : Nat → Nat
  | 0 => 0
  | n + 1 => if contributes raw n then scan W raw fb n + term W (fb - n) else scan W raw fb n

/-- `acc`: the accumulator after all `fb` fraction bits; exact, it never wraps (R84, R85). -/
def accumulator (W : Width) (raw : BitVec W.bits) (fb : Nat) : Nat := scan W raw fb fb

/-- `lead`: the explicit `-`, decided from `ip` (R82). -/
def lead {w : Nat} (raw : BitVec w) (fb : Nat) : List Byte :=
  if isNegative raw && decide (0 ≤ integerPortion raw fb) then [charMinus] else []

/-- The text of a value, with the carry rule (R86) and the normal output (R88). -/
def render (W : Width) (raw : BitVec W.bits) (fb : Nat) : List Byte :=
  if accumulator W raw fb = 10 ^ precision W then
    lead raw fb ++ sdec (integerPortion raw fb + 1) ++ [charPoint, charDigit 0]
  else
    lead raw fb ++ sdec (integerPortion raw fb) ++ [charPoint] ++ dec (accumulator W raw fb)

/-- `TOTEXT va`: append the text to `TXS` and return its length (R81, R89). -/
def execTotext (va : RegNum) (s : State) : Host.Outcome State Fault Refusal :=
  s.command fun W u =>
    u.withSource va fun raw fb =>
      (u.emit (render W raw fb)).respond (wrapW W.bits (render W raw fb).length)

end Sys2Proof.Machine
end

