-- ==== Sys2Proof/Machine/Dispatch.lean ====
section
/-! DEFINITION. One arm per command of the opcode map (30_encoding.md R46), each a direct call of its meaning. -/

namespace Sys2Proof.Machine

/-- What a decoded command does (R53). -/
def exec (i : Instr) (s : State) : Host.Outcome State Fault Refusal :=
  match i with
  | .load vd imm8 => Sys2Proof.Machine.execLoad vd imm8 s
  | .rescale vd va imm8 => Sys2Proof.Machine.execRescale vd va imm8 s
  | .add vd va vb => Sys2Proof.Machine.execAdd vd va vb s
  | .sub vd va vb => Sys2Proof.Machine.execSub vd va vb s
  | .mul vd va vb => Sys2Proof.Machine.execMul vd va vb s
  | .div vd va vb => Sys2Proof.Machine.execDiv vd va vb s
  | .cmpeq va vb => Sys2Proof.Machine.execCmpeq va vb s
  | .cmpne va vb => Sys2Proof.Machine.execCmpne va vb s
  | .rdraw va => Sys2Proof.Machine.execRdraw va s
  | .rdfb va => Sys2Proof.Machine.execRdfb va s
  | .ipart va => Sys2Proof.Machine.execIpart va s
  | .fpart va => Sys2Proof.Machine.execFpart va s
  | .totext va => Sys2Proof.Machine.execTotext va s
  | .rdstat => Sys2Proof.Machine.execRdstat s

end Sys2Proof.Machine
end

