-- ==== Sys2Proof/Machine/Step.lean ====
section
/-! DEFINITION. One step of the machine: the host's next act, executed whole (30_encoding.md R53, 70_reset_and_hazards.md R119). -/

namespace Sys2Proof.Machine

/-- One step: a reset, one command transaction, or nothing when the host presents nothing. -/
def step (s : State) : Host.Outcome State Fault Refusal :=
  match fetch s with
  | .done s' => .next s'
  | .run i s' => exec i s'
  | .illegal _ s' => illegalCommand s'

/-- The state with a table word presented as the host's next command, its data operand 0 (log 7). -/
def State.withFetchWord (s : State) (nbits w : Nat) : State := s.presentNext (BitVec.ofNat 32 (w % 2 ^ nbits)) 0

end Sys2Proof.Machine
end

