-- ==== Sys2Proof/Safety.lean ====
section
/-! DEFINITION. What claims about the machine are stated with: the invariant of its registers (10_state.md R19, R21), the launch
and the end of a run (70_reset_and_hazards.md R121, R122), and the real value of a register (R19). -/

namespace Sys2Proof.Machine

variable {W : Width}

/-- Every valid register's fractional-bit count is below `W` (R19), and `CAUSE` is one of the codes 0 to 6 (R21, R94). -/
def Fxu.Inv (u : Fxu W) : Prop :=
  (∀ r : RegNum, (u.reg r).valid = true → (u.reg r).tag < W.bits) ∧ u.status.cause.toNat ≤ 6

/-- The invariant of the machine. -/
def State.Inv (s : State) : Prop := s.fxu.Inv

/-- The launch of a run: the unit of width `W` right after reset, with the command transactions the host will present, in
order (R121, R122). -/
def State.launch (W : Width) (commands : List (CommandWord × BitVec W.bits)) : State :=
  ⟨W, { Fxu.afterReset W with pending := commands.map fun c => .command c.1 c.2 }⟩

/-- The run has ended: the host presents nothing further (R121; log 9). A command runs whole in one step, so this is the
state after the last response. -/
def State.Ended (s : State) : Prop := s.fxu.pending = []

/-- The run has ended, and ended well: the unit is not faulted at its end (R121). -/
def State.EndedWell (s : State) : Prop := s.Ended ∧ s.fxu.faulted = false

/-- The run has ended in the faulted state: it has failed, whatever else the registers hold (R121). -/
def State.EndedFailed (s : State) : Prop := s.Ended ∧ s.fxu.faulted = true

/-- The level of the `fault` output (R105). -/
def State.faultOutput (s : State) : Bool := s.fxu.faulted

/-- The real value a register stands for, `s(raw) / 2^fb` (R19). -/
def ValueReg.realValue (v : ValueReg W) : ℚ := (v.raw.toInt : ℚ) / 2 ^ v.tag

/-- An integer fits the storage width as a signed number (R10). -/
abbrev fits (W : Width) (n : Int) : Prop := -2 ^ (W.bits - 1) ≤ n ∧ n < 2 ^ (W.bits - 1)

end Sys2Proof.Machine
end

