-- ==== Sys2Proof/Certificates/Slice0/Obligations.lean ====
section
/-! DEFINITION. The statements for the provers, each with the rules of spec/ it formalises.
A machine state of width `W` is written `⟨W, u⟩`; a statement over all `W` and `u` is over all states. What the host does
next stands in `pending` (log 1), the presented word and data operand in `cmd` and `wdata`, and the responses of R54 in
`responses`, oldest first (log 5).
Where a docstring says "the spec's inference", the sentence formalised is one the spec marks as derived from its rules. -/

open Sys2Proof
open Sys2Proof.Machine

/-! ## Encoding (30_encoding.md) -/

/-- R42, R46, R51: the words the spec's assembly lines encode to (95_test_vectors.md) decode to those commands. -/
def Obligations.SpecWordsDecode : Prop :=
  decode 0x01F0001F#32 = .ok (.load 15 31#8) ∧
  decode 0x02200008#32 = .ok (.rescale 2 0 8#8) ∧
  decode 0x10201000#32 = .ok (.add 2 0 1) ∧
  decode 0x11433000#32 = .ok (.sub 4 3 3) ∧
  decode 0x12634000#32 = .ok (.mul 6 3 4) ∧
  decode 0x13534000#32 = .ok (.div 5 3 4) ∧
  decode 0x20023000#32 = .ok (.cmpeq 2 3) ∧
  decode 0x21021000#32 = .ok (.cmpne 2 1) ∧
  decode 0x300F0000#32 = .ok (.rdraw 15) ∧
  decode 0x31020000#32 = .ok (.rdfb 2) ∧
  decode 0x32030000#32 = .ok (.ipart 3) ∧
  decode 0x33030000#32 = .ok (.fpart 3) ∧
  decode 0x40020000#32 = .ok (.totext 2) ∧
  decode 0x50000000#32 = .ok .rdstat

/-- R46, R51: decoding the encoding of any command gives that command back, with every operand at every value. -/
def Obligations.DecodeOfEncodeIsTheInstruction : Prop :=
  ∀ i : Instr, decode (encode i) = .ok i

/-- R46, R48: every legal word has one encoding, so a word that decodes is the encoding of what it decodes to. -/
def Obligations.EncodeOfDecodeIsTheWord : Prop :=
  ∀ (c : CommandWord) (i : Instr), decode c = .ok i → encode i = c

/-- R46, R47: the decoder picks exactly the row of the opcode map whose match and mask words select the command word, and
answers illegal exactly when no row does. -/
def Obligations.DecodeFollowsMatchAndMask : Prop :=
  (∀ row ∈ opcodeMap, ∀ c : CommandWord,
    c &&& row.2.2 = row.2.1 ↔ ∃ i, decode c = .ok i ∧ i.mnemonic = row.1) ∧
  (∀ c : CommandWord,
    (∀ row ∈ opcodeMap, c &&& row.2.2 ≠ row.2.1) ↔ ∃ why, decode c = .error why)

/-- R43, R48: a word decodes exactly when its operation code is assigned, its reserved field is zero and every field its
format does not use is zero. -/
def Obligations.LegalWordsAreTheWellFormed : Prop :=
  ∀ c : CommandWord, (∃ i, decode c = .ok i) ↔ (fieldsOfWord c).wellFormed = true

/-- R48, R95: a command word that matches no row of the opcode map raises `IllegalCommand` on a unit that is not faulted:
code 1 is latched and returned, and nothing else of the unit changes. -/
def Obligations.IllegalWordsTrap : Prop :=
  ∀ (W : Width) (u : Fxu W) (c : CommandWord) (d : BitVec W.bits) (rest : List (HostEvent W)),
    u.pending = .command c d :: rest → u.status.cause = 0 →
    (∀ row ∈ opcodeMap, c &&& row.2.2 ≠ row.2.1) →
    step ⟨W, u⟩ = .next ⟨W, { u with
      cmd := c, wdata := d, pending := rest, status := ⟨u.status.t, 1⟩,
      responses := u.responses ++ [⟨1, 0⟩] }⟩

/-! ## Reset and the step (70_reset_and_hazards.md) -/

/-- R28: at every width, after reset no register is valid, `STATUS` reads 0, `TXS` is empty and the `fault` output is 0. The
contents of invalid registers and the ports are not stated. -/
def Obligations.ResetLeavesTheSpecsState : Prop :=
  ∀ W : Width, ∃ u : Fxu W, State.resetAt W = ⟨W, u⟩ ∧
    (∀ r : RegNum, (u.reg r).valid = false) ∧ u.status.read = 0 ∧ u.txs = [] ∧
    State.faultOutput ⟨W, u⟩ = false

/-- R111: a reset puts the unit, faulted or not, in the state after reset of its own width; what the host will do next stays
the host's. That the reset takes a step of its own is the model's reading (log 8); that `fb` and `raw` of the invalid
registers and the ports read 0, and that the model's own trace of responses restarts, is its choice (log 3, log 4, log 5). -/
def Obligations.ResetEventResetsTheUnit : Prop :=
  ∀ (W : Width) (u : Fxu W) (rest : List (HostEvent W)), u.pending = .rst :: rest →
    step ⟨W, u⟩ = .next ⟨W, { Fxu.afterReset W with pending := rest }⟩

/-- The model's choice (log 6), after R121: when the host presents nothing, a step leaves the machine as it is. -/
def Obligations.NothingPresentedNothingChanges : Prop :=
  ∀ (W : Width) (u : Fxu W), u.pending = [] → step ⟨W, u⟩ = .next ⟨W, u⟩

/-- R41, R47, R53: when the word the host presents decodes to a command, a step puts the word and its data operand on the
ports, takes them from the host, and is that command. -/
def Obligations.StepRunsTheDecodedCommand : Prop :=
  ∀ (W : Width) (u : Fxu W) (c : CommandWord) (d : BitVec W.bits) (rest : List (HostEvent W)) (i : Instr),
    u.pending = .command c d :: rest → decode c = .ok i →
    step ⟨W, u⟩ = exec i ⟨W, { u with cmd := c, wdata := d, pending := rest }⟩

/-- The model's own helper (log 7): a table word presented with `withFetchWord` is what the very next step runs. -/
def Obligations.FetchWordIsRunNext : Prop :=
  ∀ (W : Width) (u : Fxu W) (w : Nat) (i : Instr), decodeTableWord 32 w = some i →
    step (State.withFetchWord ⟨W, u⟩ 32 w) = exec i ⟨W, { u with cmd := BitVec.ofNat 32 w, wdata := 0 }⟩

/-! ## What each command does when it completes -/

/-- R55: `LOAD` with `imm8 < W` stores the data operand verbatim with the tag `imm8`, and responds `(0, 0)`. -/
def Obligations.LoadCreatesTheValue : Prop :=
  ∀ (W : Width) (u : Fxu W) (vd : RegNum) (imm8 : BitVec 8),
    u.status.cause = 0 → imm8.toNat < W.bits →
    exec (.load vd imm8) ⟨W, u⟩ = .next ⟨W, { u with
      regs := u.regs.set vd ⟨true, imm8.setWidth 6, u.wdata⟩,
      responses := u.responses ++ [⟨0, 0⟩] }⟩

/-- R62, R63: `RESCALE` to a tag not below the source's and below `W` shifts the raw value left by the difference, keeping
its low `W` bits. -/
def Obligations.RescaleShiftsLeft : Prop :=
  ∀ (W : Width) (u : Fxu W) (vd va : RegNum) (imm8 : BitVec 8),
    u.status.cause = 0 → (u.reg va).valid = true → (u.reg va).tag ≤ imm8.toNat → imm8.toNat < W.bits →
    exec (.rescale vd va imm8) ⟨W, u⟩ = .next ⟨W, { u with
      regs := u.regs.set vd ⟨true, imm8.setWidth 6, (u.reg va).raw <<< (imm8.toNat - (u.reg va).tag)⟩,
      responses := u.responses ++ [⟨0, 0⟩] }⟩

/-- R66, R67: `ADD` gives the larger of the two tags and the low `W` bits of the exact aligned sum, whatever wraps (that
wrapping once is enough is the spec's inference, 42_addsub.md section 3). -/
def Obligations.AddSumsTheAlignedOperands : Prop :=
  ∀ (W : Width) (u : Fxu W) (vd va vb : RegNum),
    u.status.cause = 0 → (u.reg va).valid = true → (u.reg vb).valid = true →
    let rf := max (u.reg va).tag (u.reg vb).tag
    exec (.add vd va vb) ⟨W, u⟩ = .next ⟨W, { u with
      regs := u.regs.set vd ⟨true, BitVec.ofNat 6 rf, BitVec.ofInt W.bits
        ((u.reg va).raw.toInt * 2 ^ (rf - (u.reg va).tag) + (u.reg vb).raw.toInt * 2 ^ (rf - (u.reg vb).tag))⟩,
      responses := u.responses ++ [⟨0, 0⟩] }⟩

/-- R66, R68: `SUB` gives the larger of the two tags and the low `W` bits of the exact aligned difference (that wrapping once
is enough is the spec's inference, 42_addsub.md section 3). -/
def Obligations.SubSubtractsTheAlignedOperands : Prop :=
  ∀ (W : Width) (u : Fxu W) (vd va vb : RegNum),
    u.status.cause = 0 → (u.reg va).valid = true → (u.reg vb).valid = true →
    let rf := max (u.reg va).tag (u.reg vb).tag
    exec (.sub vd va vb) ⟨W, u⟩ = .next ⟨W, { u with
      regs := u.regs.set vd ⟨true, BitVec.ofNat 6 rf, BitVec.ofInt W.bits
        ((u.reg va).raw.toInt * 2 ^ (rf - (u.reg va).tag) - (u.reg vb).raw.toInt * 2 ^ (rf - (u.reg vb).tag))⟩,
      responses := u.responses ++ [⟨0, 0⟩] }⟩

/-- R70: `MUL` with a tag sum below `W` gives that sum and the low `W` bits of the signed product (that they are those of the
unsigned product too is the spec's inference in R70). -/
def Obligations.MulMultipliesUnshifted : Prop :=
  ∀ (W : Width) (u : Fxu W) (vd va vb : RegNum),
    u.status.cause = 0 → (u.reg va).valid = true → (u.reg vb).valid = true →
    (u.reg va).tag + (u.reg vb).tag < W.bits →
    exec (.mul vd va vb) ⟨W, u⟩ = .next ⟨W, { u with
      regs := u.regs.set vd ⟨true, (u.reg va).fb + (u.reg vb).fb, (u.reg va).raw * (u.reg vb).raw⟩,
      responses := u.responses ++ [⟨0, 0⟩] }⟩ ∧
    (u.reg va).raw * (u.reg vb).raw = BitVec.ofInt W.bits ((u.reg va).raw.toInt * (u.reg vb).raw.toInt)

/-- R12, R72: `DIV` with a divisor that is not zero and a tag not above the dividend's gives the difference of the tags and
the signed quotient rounded toward zero. -/
def Obligations.DivTruncatesTowardZero : Prop :=
  ∀ (W : Width) (u : Fxu W) (vd va vb : RegNum),
    u.status.cause = 0 → (u.reg va).valid = true → (u.reg vb).valid = true →
    (u.reg vb).tag ≤ (u.reg va).tag → (u.reg vb).raw ≠ 0 →
    exec (.div vd va vb) ⟨W, u⟩ = .next ⟨W, { u with
      regs := u.regs.set vd ⟨true, (u.reg va).fb - (u.reg vb).fb, (u.reg va).raw.sdiv (u.reg vb).raw⟩,
      responses := u.responses ++ [⟨0, 0⟩] }⟩

/-- R77, R78: with equal tags `CMPEQ` and `CMPNE` write `T` and return it on `rdata`. -/
def Obligations.ComparesWriteAndReturnT : Prop :=
  ∀ (W : Width) (u : Fxu W) (va vb : RegNum),
    u.status.cause = 0 → (u.reg va).valid = true → (u.reg vb).valid = true → (u.reg va).fb = (u.reg vb).fb →
    exec (.cmpeq va vb) ⟨W, u⟩ = .next ⟨W, { u with
      status := ⟨decide ((u.reg va).raw = (u.reg vb).raw), 0⟩,
      responses := u.responses ++ [⟨0, if (u.reg va).raw = (u.reg vb).raw then 1 else 0⟩] }⟩ ∧
    exec (.cmpne va vb) ⟨W, u⟩ = .next ⟨W, { u with
      status := ⟨decide ((u.reg va).raw ≠ (u.reg vb).raw), 0⟩,
      responses := u.responses ++ [⟨0, if (u.reg va).raw = (u.reg vb).raw then 0 else 1⟩] }⟩

/-- R56, R57: `RDRAW` returns the raw value bit for bit and `RDFB` the tag, zero-extended; neither changes any state. -/
def Obligations.RawAndTagAreReadBack : Prop :=
  ∀ (W : Width) (u : Fxu W) (va : RegNum),
    u.status.cause = 0 → (u.reg va).valid = true →
    exec (.rdraw va) ⟨W, u⟩ = .next ⟨W, { u with responses := u.responses ++ [⟨0, (u.reg va).raw⟩] }⟩ ∧
    exec (.rdfb va) ⟨W, u⟩ =
      .next ⟨W, { u with responses := u.responses ++ [⟨0, (u.reg va).fb.setWidth W.bits⟩] }⟩

/-- R59 to R61: `IPART` and `FPART` return the two parts of the magnitude: `FPART` is below `2^fb` and together they give
the absolute value of the signed raw value back, at `MIN_W` too (the last is the spec's inference, 40_construct_access.md
section 2; with the bound it fixes both results). -/
def Obligations.PartsRebuildTheMagnitude : Prop :=
  ∀ (W : Width) (u : Fxu W) (va : RegNum),
    u.status.cause = 0 → (u.reg va).valid = true →
    ∃ ip fp : BitVec W.bits,
      exec (.ipart va) ⟨W, u⟩ = .next ⟨W, { u with responses := u.responses ++ [⟨0, ip⟩] }⟩ ∧
      exec (.fpart va) ⟨W, u⟩ = .next ⟨W, { u with responses := u.responses ++ [⟨0, fp⟩] }⟩ ∧
      fp.toNat < 2 ^ (u.reg va).tag ∧
      ip.toNat * 2 ^ (u.reg va).tag + fp.toNat = (u.reg va).raw.toInt.natAbs

/-- R79: a completed `RDSTAT` returns `STATUS`, which is 1 if `T` is set and 0 if not (the spec's inference, since `CAUSE` is
then 0), and changes no state. -/
def Obligations.StatusReadReturnsT : Prop :=
  ∀ (W : Width) (u : Fxu W), u.status.cause = 0 →
    exec .rdstat ⟨W, u⟩ =
      .next ⟨W, { u with responses := u.responses ++ [⟨0, if u.status.t then 1 else 0⟩] }⟩

/-- The low `fb` bits of a raw value as the fraction scan selects them: as they are for a non-negative value, complemented
for a negative one (R84). -/
def selectedBits {w : Nat} (raw : BitVec w) (fb : Nat) : Nat :=
  if raw.toInt < 0 then 2 ^ fb - 1 - raw.toNat % 2 ^ fb else raw.toNat % 2 ^ fb

/-- The sum of the decimal terms of the selected fraction bits (R84, R85). -/
def selectedTerms (W : Width) (raw : BitVec W.bits) (fb : Nat) : Nat :=
  ((List.range fb).map fun i =>
    if (selectedBits raw fb).testBit i then 10 ^ precision W / 2 ^ (fb - i) else 0).sum

/-- R81 to R89: `TOTEXT` appends the sign, the integer portion, the point and the sum of the selected terms to `TXS` and
returns the length; the carry case of R86 never arises (R87). -/
def Obligations.TotextEmitsTheRendering : Prop :=
  ∀ (W : Width) (u : Fxu W) (va : RegNum),
    u.status.cause = 0 → (u.reg va).valid = true →
    let raw := (u.reg va).raw
    let fb := (u.reg va).tag
    let ip := raw.toInt / 2 ^ fb + (if raw.toInt < 0 then 1 else 0)
    let text := (if raw.toInt < 0 ∧ 0 ≤ ip then [0x2D#8] else []) ++ sdec ip ++ [0x2E#8] ++ dec (selectedTerms W raw fb)
    exec (.totext va) ⟨W, u⟩ = .next ⟨W, { u with
      txs := u.txs ++ text,
      responses := u.responses ++ [⟨0, BitVec.ofNat W.bits text.length⟩] }⟩

/-! ## Where commands trap, and the faulted state (60_exceptions.md) -/

/-- R96: a command that names a register holding no value as a source raises `InvalidOperand`, before any other check of
its operands; with valid sources no command raises it, whatever its destination holds. -/
def Obligations.InvalidSourcesTrap : Prop :=
  ∀ (i : Instr) (W : Width) (u : Fxu W), u.status.cause = 0 →
    ((∃ r ∈ i.sources, (u.reg r).valid = false) →
      exec i ⟨W, u⟩ = .next ⟨W, { u with
        status := ⟨u.status.t, 2⟩, responses := u.responses ++ [⟨2, 0⟩] }⟩) ∧
    (∀ t : Fxu W, (∀ r ∈ i.sources, (u.reg r).valid = true) →
      exec i ⟨W, u⟩ = .next ⟨W, t⟩ → t.status.cause ≠ 2)

/-- R55, R63, R64, R97, R100: `LOAD` and `RESCALE` raise `ConfigError` on an immediate not below `W`, and `RESCALE` raises
`RescaleDown` on one below `W` and below the source's tag. -/
def Obligations.LoadAndRescaleTrap : Prop :=
  ∀ (W : Width) (u : Fxu W) (vd va : RegNum) (imm8 : BitVec 8), u.status.cause = 0 →
    (W.bits ≤ imm8.toNat →
      exec (.load vd imm8) ⟨W, u⟩ = .next ⟨W, { u with
        status := ⟨u.status.t, 3⟩, responses := u.responses ++ [⟨3, 0⟩] }⟩) ∧
    ((u.reg va).valid = true → W.bits ≤ imm8.toNat →
      exec (.rescale vd va imm8) ⟨W, u⟩ = .next ⟨W, { u with
        status := ⟨u.status.t, 3⟩, responses := u.responses ++ [⟨3, 0⟩] }⟩) ∧
    ((u.reg va).valid = true → imm8.toNat < W.bits → imm8.toNat < (u.reg va).tag →
      exec (.rescale vd va imm8) ⟨W, u⟩ = .next ⟨W, { u with
        status := ⟨u.status.t, 6⟩, responses := u.responses ++ [⟨6, 0⟩] }⟩)

/-- R71, R73, R74, R97, R98, R103: with valid sources `MUL` raises `ConfigError` on a tag sum not below `W`; `DIV` raises
`ConfigError` on a dividend tag below the divisor's, whatever the divisor, and otherwise `DomainError` on a zero divisor,
whatever the dividend. -/
def Obligations.MulAndDivTrap : Prop :=
  ∀ (W : Width) (u : Fxu W) (vd va vb : RegNum),
    u.status.cause = 0 → (u.reg va).valid = true → (u.reg vb).valid = true →
    (W.bits ≤ (u.reg va).tag + (u.reg vb).tag →
      exec (.mul vd va vb) ⟨W, u⟩ = .next ⟨W, { u with
        status := ⟨u.status.t, 3⟩, responses := u.responses ++ [⟨3, 0⟩] }⟩) ∧
    ((u.reg va).tag < (u.reg vb).tag →
      exec (.div vd va vb) ⟨W, u⟩ = .next ⟨W, { u with
        status := ⟨u.status.t, 3⟩, responses := u.responses ++ [⟨3, 0⟩] }⟩) ∧
    ((u.reg vb).tag ≤ (u.reg va).tag → (u.reg vb).raw = 0 →
      exec (.div vd va vb) ⟨W, u⟩ = .next ⟨W, { u with
        status := ⟨u.status.t, 4⟩, responses := u.responses ++ [⟨4, 0⟩] }⟩)

/-- R76, R99: comparing valid values of different tags raises `TypeMismatch` and leaves `T` alone. -/
def Obligations.ComparesTrapOnDifferentTags : Prop :=
  ∀ (W : Width) (u : Fxu W) (va vb : RegNum),
    u.status.cause = 0 → (u.reg va).valid = true → (u.reg vb).valid = true → (u.reg va).fb ≠ (u.reg vb).fb →
    exec (.cmpeq va vb) ⟨W, u⟩ = .next ⟨W, { u with
      status := ⟨u.status.t, 5⟩, responses := u.responses ++ [⟨5, 0⟩] }⟩ ∧
    exec (.cmpne va vb) ⟨W, u⟩ = .next ⟨W, { u with
      status := ⟨u.status.t, 5⟩, responses := u.responses ++ [⟨5, 0⟩] }⟩

/-- R102: a faulted unit refuses every command word, legal or illegal: the latched code and zero are returned and nothing
else of the unit changes. -/
def Obligations.FaultedUnitRefusesEveryCommand : Prop :=
  ∀ (W : Width) (u : Fxu W) (c : CommandWord) (d : BitVec W.bits) (rest : List (HostEvent W)),
    u.pending = .command c d :: rest → u.status.cause ≠ 0 →
    step ⟨W, u⟩ = .next ⟨W, { u with
      cmd := c, wdata := d, pending := rest,
      responses := u.responses ++ [⟨u.status.cause, 0⟩] }⟩

/-- R101: whichever command faults, and whatever the fault, the code is latched and returned with `rdata` 0, the `fault`
output rises, and nothing else changes: no register, not `T`, no text. -/
def Obligations.FaultEntryIsPrecise : Prop :=
  ∀ (W : Width) (u t : Fxu W) (c : CommandWord) (d : BitVec W.bits) (rest : List (HostEvent W)),
    u.pending = .command c d :: rest → u.status.cause = 0 →
    step ⟨W, u⟩ = .next ⟨W, t⟩ → t.status.cause ≠ 0 →
    t = { u with
      cmd := c, wdata := d, pending := rest, status := ⟨u.status.t, t.status.cause⟩,
      responses := u.responses ++ [⟨t.status.cause, 0⟩] } ∧
    State.faultOutput ⟨W, u⟩ = false ∧ State.faultOutput ⟨W, t⟩ = true ∧ t.status.cause.toNat ≤ 6

/-! ## Frames -/

/-- R20, R24, R101: `LOAD`, `RESCALE`, `ADD`, `SUB`, `MUL`, `DIV` (the commands with a destination) leave every register but
the destination, `T`, `TXS` and the ports alone; when they fault they leave the destination alone too. -/
def Obligations.WritersLeaveTheRest : Prop :=
  ∀ (i : Instr) (vd : RegNum) (W : Width) (u t : Fxu W), i.dest = some vd →
    exec i ⟨W, u⟩ = .next ⟨W, t⟩ →
    (∀ r : RegNum, r ≠ vd → t.reg r = u.reg r) ∧
    t.status.t = u.status.t ∧ t.txs = u.txs ∧ t.cmd = u.cmd ∧ t.wdata = u.wdata ∧ t.pending = u.pending ∧
    (t.status.cause = u.status.cause ∨ (u.status.cause = 0 ∧ t.regs = u.regs))

/-- R34, R101: `RDRAW`, `RDFB`, `IPART`, `FPART`, `RDSTAT` change no register, not `T`, no text and no port; `CAUSE` changes
only where they fault. -/
def Obligations.ReadersLeaveEverything : Prop :=
  ∀ (i : Instr) (W : Width) (u t : Fxu W),
    (∃ va, i = .rdraw va ∨ i = .rdfb va ∨ i = .ipart va ∨ i = .fpart va) ∨ i = .rdstat →
    exec i ⟨W, u⟩ = .next ⟨W, t⟩ →
    t.regs = u.regs ∧ t.status.t = u.status.t ∧ t.txs = u.txs ∧ t.cmd = u.cmd ∧ t.wdata = u.wdata ∧
    t.pending = u.pending ∧
    (t.status.cause = u.status.cause ∨
      (u.status.cause = 0 ∧ t.status.cause = 2 ∧ ∃ r ∈ i.sources, (u.reg r).valid = false))

/-- R24, R77, R78: `CMPEQ` and `CMPNE` change no register, no text and no port; when they fault, not `T` either. -/
def Obligations.ComparesChangeOnlyT : Prop :=
  ∀ (i : Instr) (va vb : RegNum) (W : Width) (u t : Fxu W), i = .cmpeq va vb ∨ i = .cmpne va vb →
    exec i ⟨W, u⟩ = .next ⟨W, t⟩ →
    t.regs = u.regs ∧ t.txs = u.txs ∧ t.cmd = u.cmd ∧ t.wdata = u.wdata ∧ t.pending = u.pending ∧
    (t.status.cause = u.status.cause ∨ (u.status.cause = 0 ∧ t.status.t = u.status.t)) ∧
    (u.status.cause ≠ 0 → t.status.t = u.status.t)

/-- R22, R81: `TOTEXT` changes no register, not `T` and no port, and takes nothing back from `TXS`; when it faults it emits
nothing. -/
def Obligations.TotextChangesOnlyTheText : Prop :=
  ∀ (va : RegNum) (W : Width) (u t : Fxu W), exec (.totext va) ⟨W, u⟩ = .next ⟨W, t⟩ →
    t.regs = u.regs ∧ t.status.t = u.status.t ∧ t.cmd = u.cmd ∧ t.wdata = u.wdata ∧ t.pending = u.pending ∧
    ((t.status.cause = u.status.cause ∧ ∃ str, t.txs = u.txs ++ str) ∨ (u.status.cause = 0 ∧ t.txs = u.txs))

/-! ## Rules about the whole machine -/

/-- R37, R54: every command, whatever it is, takes exactly one transaction from the host and gets exactly one response, whose
status is the code in `CAUSE` afterwards, with `rdata` 0 when that is not 0. -/
def Obligations.EveryCommandGetsOneResponse : Prop :=
  ∀ (W : Width) (u : Fxu W) (c : CommandWord) (d : BitVec W.bits) (rest : List (HostEvent W)),
    u.pending = .command c d :: rest →
    ∃ (t : Fxu W) (a : Response W), step ⟨W, u⟩ = .next ⟨W, t⟩ ∧ t.pending = rest ∧
      t.responses = u.responses ++ [a] ∧ a.status = t.status.cause ∧ (a.status ≠ 0 → a.rdata = 0)

/-- R50: the data operand is read by `LOAD` only, all `W` bits; with any other word, legal or not, presenting another data
operand changes nothing but what stands on the port. -/
def Obligations.DataOperandIsReadByLoadOnly : Prop :=
  ∀ (W : Width) (u : Fxu W) (c : CommandWord) (d d' : BitVec W.bits) (rest : List (HostEvent W)),
    u.pending = .command c d :: rest →
    ((∀ vd imm8, decode c ≠ .ok (.load vd imm8)) →
      ∃ t : Fxu W, step ⟨W, u⟩ = .next ⟨W, t⟩ ∧
        step ⟨W, { u with pending := .command c d' :: rest }⟩ = .next ⟨W, { t with wdata := d' }⟩) ∧
    (∀ vd imm8, decode c = .ok (.load vd imm8) → u.status.cause = 0 → imm8.toNat < W.bits →
      ∃ t : Fxu W, step ⟨W, u⟩ = .next ⟨W, t⟩ ∧ (t.reg vd).raw = d)

/-- R24: no command but `RDSTAT` behaves differently for a different `T`: from two states that differ in `T` alone it leaves
two states that differ in `T` at most, and `T` itself is kept or, by a compare only, set the same in both. -/
def Obligations.FlagSteersNoCommand : Prop :=
  ∀ (i : Instr) (W : Width) (u : Fxu W) (b : Bool), i ≠ .rdstat →
    ∃ t t' : Fxu W, exec i ⟨W, u⟩ = .next ⟨W, t⟩ ∧
      exec i ⟨W, { u with status := ⟨b, u.status.cause⟩ }⟩ = .next ⟨W, t'⟩ ∧
      t' = { t with status := ⟨t'.status.t, t.status.cause⟩ } ∧
      ((t.status.t = u.status.t ∧ t'.status.t = b) ∨
        (t'.status.t = t.status.t ∧ ∃ va vb, i = .cmpeq va vb ∨ i = .cmpne va vb))

/-- R21, R22, R104, R111: no step but a reset makes a valid register invalid, leaves or changes a latched fault code, or
takes bytes from `TXS` (a step with nothing presented changes nothing by the model's choice, log 6). -/
def Obligations.OnlyResetClears : Prop :=
  ∀ (W : Width) (u t : Fxu W), u.pending.head? ≠ some .rst → step ⟨W, u⟩ = .next ⟨W, t⟩ →
    (∀ r : RegNum, (u.reg r).valid = true → (t.reg r).valid = true) ∧
    (u.status.cause ≠ 0 → t.status.cause = u.status.cause) ∧ u.txs <+: t.txs

/-- R19, R28: the invariant (tags of valid registers below `W`, `CAUSE` a legal code) holds after reset at every width. -/
def Obligations.InvariantHoldsAtReset : Prop :=
  State.reset.Inv ∧ ∀ W : Width, (State.resetAt W).Inv

/-- R19, R21: every step keeps the invariant, from every state that meets it. -/
def Obligations.StepKeepsTheInvariant : Prop :=
  ∀ s t : State, s.Inv → step s = .next t → t.Inv

/-- R5, R37, R117, R121: the machine never changes its width, hangs on no command and has no halt, however many steps it
takes; it takes the host's commands one a step in the order the host gives them. The model's choices in it: a step past the
last thing presented leaves the machine as it is (log 6), and a reset takes a step of its own, in its place among the host's
acts (log 8), which stand in `pending` (log 1). -/
def Obligations.RunsNeverStop : Prop :=
  ∀ (k : Nat) (W : Width) (u : Fxu W),
    ∃ t : Fxu W, Host.Core.run Sys2Proof.core k (⟨W, u⟩ : State) = .next (⟨W, t⟩ : State) ∧
      t.pending = u.pending.drop k

/-- R102, R104: along any run without a reset, a faulted unit stays exactly as it was, and every command presented gets the
latched code and zero. The model's choices in it: steps past the last command presented change nothing (log 6), and the
responses are recorded in `responses` (log 5). -/
def Obligations.FaultedUntilReset : Prop :=
  ∀ (k : Nat) (W : Width) (u : Fxu W), u.status.cause ≠ 0 → (∀ e ∈ u.pending.take k, e ≠ .rst) →
    ∃ t : Fxu W, Host.Core.run Sys2Proof.core k (⟨W, u⟩ : State) = .next (⟨W, t⟩ : State) ∧
      t.regs = u.regs ∧ t.status = u.status ∧ t.txs = u.txs ∧
      t.responses = u.responses ++ List.replicate (min k u.pending.length) ⟨u.status.cause, 0⟩

/-! ## What the results mean -/

/-- The spec's inference (42_addsub.md section 3): where neither alignment nor the result overflows `W` bits, `ADD` and `SUB`
are exact on the real values. -/
def Obligations.AddAndSubAreExactWithoutOverflow : Prop :=
  ∀ (W : Width) (u : Fxu W) (vd va vb : RegNum),
    u.status.cause = 0 → (u.reg va).valid = true → (u.reg vb).valid = true →
    let rf := max (u.reg va).tag (u.reg vb).tag
    let a := (u.reg va).raw.toInt * 2 ^ (rf - (u.reg va).tag)
    let b := (u.reg vb).raw.toInt * 2 ^ (rf - (u.reg vb).tag)
    fits W a → fits W b →
    (fits W (a + b) → ∃ t : Fxu W, exec (.add vd va vb) ⟨W, u⟩ = .next ⟨W, t⟩ ∧
      (t.reg vd).realValue = (u.reg va).realValue + (u.reg vb).realValue) ∧
    (fits W (a - b) → ∃ t : Fxu W, exec (.sub vd va vb) ⟨W, u⟩ = .next ⟨W, t⟩ ∧
      (t.reg vd).realValue = (u.reg va).realValue - (u.reg vb).realValue)

/-- The spec's inference (43_muldiv.md section 1): where the product does not overflow `W` bits and its tag is legal, `MUL` is
exact on the real values. -/
def Obligations.MulIsExactWithoutOverflow : Prop :=
  ∀ (W : Width) (u : Fxu W) (vd va vb : RegNum),
    u.status.cause = 0 → (u.reg va).valid = true → (u.reg vb).valid = true →
    (u.reg va).tag + (u.reg vb).tag < W.bits → fits W ((u.reg va).raw.toInt * (u.reg vb).raw.toInt) →
    ∃ t : Fxu W, exec (.mul vd va vb) ⟨W, u⟩ = .next ⟨W, t⟩ ∧
      (t.reg vd).realValue = (u.reg va).realValue * (u.reg vb).realValue

/-- The spec's inference (43_muldiv.md section 2): the quotient `DIV` writes carries the difference of the tags as its tag and
is the real quotient rounded toward zero at that tag, except for the one overflow of R75. -/
def Obligations.DivRoundsTheRealQuotientTowardZero : Prop :=
  ∀ (W : Width) (u : Fxu W) (vd va vb : RegNum),
    u.status.cause = 0 → (u.reg va).valid = true → (u.reg vb).valid = true →
    (u.reg vb).tag ≤ (u.reg va).tag → (u.reg vb).raw ≠ 0 →
    ¬((u.reg va).raw.toInt = -2 ^ (W.bits - 1) ∧ (u.reg vb).raw.toInt = -1) →
    let q := (u.reg va).realValue / (u.reg vb).realValue
    ∃ t : Fxu W, exec (.div vd va vb) ⟨W, u⟩ = .next ⟨W, t⟩ ∧
      (t.reg vd).tag = (u.reg va).tag - (u.reg vb).tag ∧ |(t.reg vd).realValue| ≤ |q| ∧ 0 ≤ (t.reg vd).realValue * q ∧
      |q - (t.reg vd).realValue| < 1 / 2 ^ ((u.reg va).tag - (u.reg vb).tag)

/-- The spec's inference (41_rescale.md section 1): where the shifted value fits `W` bits, `RESCALE` keeps the real value. -/
def Obligations.RescaleKeepsTheRealValue : Prop :=
  ∀ (W : Width) (u : Fxu W) (vd va : RegNum) (imm8 : BitVec 8),
    u.status.cause = 0 → (u.reg va).valid = true → (u.reg va).tag ≤ imm8.toNat → imm8.toNat < W.bits →
    fits W ((u.reg va).raw.toInt * 2 ^ (imm8.toNat - (u.reg va).tag)) →
    ∃ t : Fxu W, exec (.rescale vd va imm8) ⟨W, u⟩ = .next ⟨W, t⟩ ∧
      (t.reg vd).tag = imm8.toNat ∧ (t.reg vd).realValue = (u.reg va).realValue

/-- The spec's inference (41_rescale.md section 2): rescaling the value of the smaller tag to the other's tag, without
overflow, and then comparing raw values compares the real values. -/
def Obligations.RescaleThenCompareComparesRealValues : Prop :=
  ∀ (W : Width) (u : Fxu W) (tmp va vb : RegNum),
    u.status.cause = 0 → (u.reg va).valid = true → (u.reg vb).valid = true → tmp ≠ vb →
    (u.reg va).tag ≤ (u.reg vb).tag → (u.reg vb).tag < W.bits →
    fits W ((u.reg va).raw.toInt * 2 ^ ((u.reg vb).tag - (u.reg va).tag)) →
    ∃ t t' : Fxu W, exec (.rescale tmp va ((u.reg vb).fb.setWidth 8)) ⟨W, u⟩ = .next ⟨W, t⟩ ∧
      exec (.cmpeq tmp vb) ⟨W, t⟩ = .next ⟨W, t'⟩ ∧
      (t'.status.t = true ↔ (u.reg va).realValue = (u.reg vb).realValue)

/-- R75: the quotient `tdiv(-2^(W-1), -1) = 2^(W-1)` does not fit, its narrowing is `MIN_W`, and so `MIN_W / -1` is `MIN_W`
with no fault, at every width and every pair of tags the tag check admits. -/
def Obligations.MinDividedByMinusOneIsMin : Prop :=
  ∀ (W : Width) (u : Fxu W) (vd va vb : RegNum),
    (tdiv (-2 ^ (W.bits - 1)) (-1) = 2 ^ (W.bits - 1) ∧ ¬fits W (2 ^ (W.bits - 1)) ∧
      wrapW W.bits (2 ^ (W.bits - 1)) = BitVec.intMin W.bits) ∧
    (u.status.cause = 0 → (u.reg va).valid = true → (u.reg vb).valid = true →
    (u.reg vb).tag ≤ (u.reg va).tag → (u.reg va).raw = BitVec.intMin W.bits → (u.reg vb).raw = -1 →
    ∃ t : Fxu W, exec (.div vd va vb) ⟨W, u⟩ = .next ⟨W, t⟩ ∧ t.status.cause = 0 ∧
      (t.reg vd).raw = BitVec.intMin W.bits ∧ (t.reg vd).tag = (u.reg va).tag - (u.reg vb).tag)

/-- The spec's inference (44_compare.md section 3): for two valid registers of equal tag, `CMPEQ` and `CMPNE` set opposite
bits, both are symmetric in their operands, and `CMPEQ` is reflexive. -/
def Obligations.CompareLaws : Prop :=
  ∀ (W : Width) (u : Fxu W) (va vb : RegNum),
    u.status.cause = 0 → (u.reg va).valid = true → (u.reg vb).valid = true → (u.reg va).fb = (u.reg vb).fb →
    ∃ t n : Fxu W, exec (.cmpeq va vb) ⟨W, u⟩ = .next ⟨W, t⟩ ∧ exec (.cmpne va vb) ⟨W, u⟩ = .next ⟨W, n⟩ ∧
      t.status.t = !n.status.t ∧
      exec (.cmpeq vb va) ⟨W, u⟩ = .next ⟨W, t⟩ ∧ exec (.cmpne vb va) ⟨W, u⟩ = .next ⟨W, n⟩ ∧
      (va = vb → t.status.t = true)

/-! ## The text (45_text.md) -/

/-- The largest value the accumulator takes at each width (R87). -/
def largestAccumulator : Width → Nat
  | .w8 => 990
  | .w16 => 99993
  | .w32 => 9999999986
  | .w64 => 99999999999999999966

/-- The spec's inference (45_text.md section 2): the carry condition is unreachable: the accumulator is always below `10^P`,
and the largest values it takes are those of the spec. -/
def Obligations.AccumulatorNeverCarries : Prop :=
  ∀ W : Width, (∀ (raw : BitVec W.bits) (fb : Nat), fb < W.bits →
      accumulator W raw fb < 10 ^ precision W ∧ accumulator W raw fb ≤ largestAccumulator W) ∧
    (∃ (raw : BitVec W.bits) (fb : Nat), fb < W.bits ∧ accumulator W raw fb = largestAccumulator W)

/-- R13: `dec(n)` is a string of decimal digits whose value is `n`, with no leading zero unless it is the one digit of zero:
the shortest such string. `sdec(n)` is `dec(n)` for `n` not negative, and `-` (0x2D) followed by `dec(-n)` for `n` negative. -/
def Obligations.DecimalNumeralsAreShortest : Prop :=
  (∀ n : Nat,
    (∀ c ∈ dec n, 0x30 ≤ c.toNat ∧ c.toNat ≤ 0x39) ∧
    (dec n).foldl (fun v c => 10 * v + (c.toNat - 0x30)) 0 = n ∧
    (if n = 0 then dec n = [0x30#8] else (dec n).head? ≠ some 0x30#8)) ∧
  ∀ n : Int, (0 ≤ n → sdec n = dec n.toNat) ∧ (n < 0 → sdec n = 0x2D#8 :: dec (-n).toNat)

/-- R8: the precision scale of the four widths is that of the formula, and `10^P` never fits in `W` bits. -/
def Obligations.PrecisionFollowsTheFormula : Prop :=
  ∀ W : Width, precision W = Nat.log 10 (2 ^ W.bits) + 1 ∧ 2 ^ W.bits ≤ 10 ^ precision W

/-- The spec's inference (45_text.md section 2): the text begins with `-` exactly when the value is negative. -/
def Obligations.TextBeginsWithMinusIffNegative : Prop :=
  ∀ (W : Width) (raw : BitVec W.bits) (fb : Nat),
    (render W raw fb).head? = some 0x2D#8 ↔ raw.toInt < 0

/-- The bound on the length of a text at each width (R91). -/
def longestText : Width → Nat
  | .w8 => 8
  | .w16 => 12
  | .w32 => 22
  | .w64 => 41

/-- The spec's inference (45_text.md section 3): every text has at least three characters and at most the spec's bound for its
width. -/
def Obligations.TextLengthIsBounded : Prop :=
  ∀ (W : Width) (raw : BitVec W.bits) (fb : Nat), fb < W.bits →
    3 ≤ (render W raw fb).length ∧ (render W raw fb).length ≤ longestText W

/-- The spec's inference (45_text.md section 3): a non-negative value whose low `fb` bits are zero renders its integer
followed by `.0`; zero renders `0.0`. -/
def Obligations.WholeNumbersRenderWithPointZero : Prop :=
  (∀ (W : Width) (raw : BitVec W.bits) (fb : Nat), 0 ≤ raw.toInt → raw.toNat % 2 ^ fb = 0 →
    render W raw fb = dec (raw.toNat / 2 ^ fb) ++ [0x2E#8, 0x30#8]) ∧
  (∀ (W : Width) (fb : Nat), render W 0 fb = [0x30#8, 0x2E#8, 0x30#8])

/-- The spec's inference (45_text.md section 3, (a) and (c)): with no more than `P` fractional bits the decimal figures of the
text are exact: for a non-negative value they stand for it, for a negative one for a magnitude one unit in the last binary
place smaller. -/
def Obligations.TextFiguresAreExactUpToPrecision : Prop :=
  ∀ (W : Width) (raw : BitVec W.bits) (fb : Nat), fb ≤ precision W →
    (0 ≤ raw.toInt →
      (integerPortion raw fb * 10 ^ precision W + accumulator W raw fb) * 2 ^ fb = raw.toInt * 10 ^ precision W) ∧
    (raw.toInt < 0 →
      (-integerPortion raw fb * 10 ^ precision W + accumulator W raw fb) * 2 ^ fb =
        (-raw.toInt - 1) * 10 ^ precision W)

/-! ## The end of a run (70_reset_and_hazards.md section 4) -/

/-- R121: a run of any command transactions after a reset has not ended before its last response; after it, it has, with one
response to each command, and the unit has no halt: it stays in that final state. The run ended well exactly when every
command completed, and failed exactly when some command was answered with a fault code, which is then the code in `CAUSE`.
The model's choices in it: what is to come stands in `pending` (log 1), responses are recorded (log 5), steps past the end
change nothing (log 6), and a run has ended when `pending` is empty (log 9). -/
def Obligations.RunEndsAfterTheLastResponse : Prop :=
  ∀ (W : Width) (commands : List (CommandWord × BitVec W.bits)),
    (∀ k < commands.length, ∃ t : Fxu W,
      Host.Core.run Sys2Proof.core k (State.launch W commands) = .next (⟨W, t⟩ : State) ∧ ¬State.Ended ⟨W, t⟩) ∧
    ∃ t : Fxu W,
      (∀ k, commands.length ≤ k →
        Host.Core.run Sys2Proof.core k (State.launch W commands) = .next (⟨W, t⟩ : State)) ∧
      State.Ended ⟨W, t⟩ ∧ t.responses.length = commands.length ∧
      (State.EndedWell ⟨W, t⟩ ↔ ∀ a ∈ t.responses, a.status = 0) ∧
      (State.EndedFailed ⟨W, t⟩ ↔ ∃ a ∈ t.responses, a.status ≠ 0) ∧
      (∀ a ∈ t.responses, a.status ≠ 0 → a.status = t.status.cause)
end

