-- ==== Sys2Proof/Laws/Decode.lean ====
section
/-! SUPPORT. The decoder and the encoder on fields: cutting a word and joining it undo each other, and what a word whose
fields decode must look like. -/

namespace Sys2Proof

/-- Cutting the word joined from six fields gives the fields (R42). -/
@[simp] theorem fieldsOfWord_wordOfFields (f : Fields) : fieldsOfWord (wordOfFields f) = f := by
  obtain ⟨op, vd, va, vb, rsv, imm8⟩ := f
  have h1 := op.isLt
  have h2 := vd.isLt
  have h3 := va.isLt
  have h4 := vb.isLt
  have h5 := rsv.isLt
  have h6 := imm8.isLt
  simp only [fieldsOfWord, wordOfFields, Fields.mk.injEq]
  refine ⟨?_, ?_, ?_, ?_, ?_, ?_⟩ <;> apply BitVec.eq_of_toNat_eq <;>
    simp only [BitVec.extractLsb'_toNat, BitVec.toNat_append, Nat.shiftRight_eq_div_pow] <;>
    rw [← Nat.shiftLeft_add_eq_or_of_lt h2, ← Nat.shiftLeft_add_eq_or_of_lt h3, ← Nat.shiftLeft_add_eq_or_of_lt h4,
      ← Nat.shiftLeft_add_eq_or_of_lt h5, ← Nat.shiftLeft_add_eq_or_of_lt h6] <;>
    simp only [Nat.shiftLeft_eq] <;> omega

/-- Joining the fields of a word gives the word (R42). -/
@[simp] theorem wordOfFields_fieldsOfWord (c : CommandWord) : wordOfFields (fieldsOfWord c) = c := by
  apply BitVec.eq_of_toNat_eq
  have := c.isLt
  simp only [fieldsOfWord, wordOfFields, BitVec.toNat_append]
  have e1 : (c.extractLsb' 20 4).toNat < 2 ^ 4 := BitVec.isLt _
  have e2 : (c.extractLsb' 16 4).toNat < 2 ^ 4 := BitVec.isLt _
  have e3 : (c.extractLsb' 12 4).toNat < 2 ^ 4 := BitVec.isLt _
  have e4 : (c.extractLsb' 8 4).toNat < 2 ^ 4 := BitVec.isLt _
  have e5 : (c.extractLsb' 0 8).toNat < 2 ^ 8 := BitVec.isLt _
  rw [← Nat.shiftLeft_add_eq_or_of_lt e1, ← Nat.shiftLeft_add_eq_or_of_lt e2, ← Nat.shiftLeft_add_eq_or_of_lt e3,
    ← Nat.shiftLeft_add_eq_or_of_lt e4, ← Nat.shiftLeft_add_eq_or_of_lt e5]
  simp only [BitVec.extractLsb'_toNat, Nat.shiftRight_eq_div_pow, Nat.shiftLeft_eq]
  omega

/-- The mask of a word is the mask of each field (R46). -/
theorem and_wordOfFields (f g : Fields) : wordOfFields f &&& wordOfFields g =
    wordOfFields ⟨f.op &&& g.op, f.vd &&& g.vd, f.va &&& g.va, f.vb &&& g.vb, f.rsv &&& g.rsv, f.imm8 &&& g.imm8⟩ := by
  unfold wordOfFields
  show ((f.op ++ f.vd ++ f.va ++ f.vb ++ f.rsv ++ f.imm8) &&&
    (g.op ++ g.vd ++ g.va ++ g.vb ++ g.rsv ++ g.imm8) : BitVec (8 + 4 + 4 + 4 + 4 + 8)) = _
  simp only [BitVec.and_append]

/-- A register number written as a field and read back (R45). -/
@[simp] theorem regOf_fieldOfReg (r : RegNum) : regOf (fieldOfReg r) = r := rfl

/-- A field read as a register number and written back (R45). -/
@[simp] theorem fieldOfReg_regOf (x : BitVec 4) : fieldOfReg (regOf x) = x := rfl

/-- What the checks (b) and (c) let through (R48). -/
theorem accept_ok_iff {f : Fields} {b : Bool} {i j : Instr} :
    accept f b i = .ok j ↔ f.rsv = 0#4 ∧ b = true ∧ j = i := by
  unfold accept
  by_cases hr : f.rsv = 0#4
  · cases b
    · simp [hr]
    · simp only [if_true, hr, true_and, Except.ok.injEq]
      exact eq_comm
  · simp [hr]

/-- Fields that decode have an assigned operation code (R48 (a)). -/
theorem decodeFields_ok_op {f : Fields} {i : Instr} (h : decodeFields f = .ok i) :
    f.op ∈ opFormats.map Prod.fst := by
  by_contra hn
  simp only [opFormats, List.map_cons, List.map_nil, List.mem_cons, List.not_mem_nil, or_false, not_or] at hn
  obtain ⟨h1, h2, h3, h4, h5, h6, h7, h8, h9, h10, h11, h12, h13, h14⟩ := hn
  rw [decodeFields, if_neg h1, if_neg h2, if_neg h3, if_neg h4, if_neg h5, if_neg h6, if_neg h7, if_neg h8, if_neg h9,
    if_neg h10, if_neg h11, if_neg h12, if_neg h13, if_neg h14] at h
  cases h

end Sys2Proof
end

