-- ==== Sys2Proof/Laws/Operands.lean ====
section
/-! SUPPORT. What the arithmetic operations compute, in the terms later proofs use. -/

namespace Sys2Proof.Machine

variable {w : Nat}

/-- The left shift of the spec is the shift of bit vectors (R11). -/
theorem lsl_eq_shiftLeft (x : BitVec w) (n : Nat) : lsl x n = x <<< n := by
  apply BitVec.eq_of_toNat_eq
  have h : ((x.toNat : Int) * 2 ^ n % 2 ^ w) = ((x.toNat * 2 ^ n % 2 ^ w : Nat) : Int) := by push_cast; rfl
  simp only [lsl, wrapW, BitVec.toNat_ofInt, BitVec.toNat_shiftLeft, Nat.shiftLeft_eq]
  push_cast
  rw [h, Int.toNat_natCast]

/-- Narrowing undoes the signed reading (R10). -/
@[simp] theorem wrapW_toInt (x : BitVec w) : wrapW w x.toInt = x := BitVec.ofInt_toInt

/-- Narrowing a sum of integers is adding their narrowings (R7). -/
theorem wrapW_add (a b : Int) : wrapW w (a + b) = wrapW w a + wrapW w b := BitVec.ofInt_add a b

/-- Narrowing a difference of integers is subtracting their narrowings (R7). -/
theorem wrapW_sub (a b : Int) : wrapW w (a - b) = wrapW w a - wrapW w b := by
  unfold wrapW
  rw [Int.sub_eq_add_neg, BitVec.ofInt_add, BitVec.ofInt_neg, BitVec.sub_eq_add_neg]

/-- Narrowing a product of integers is multiplying their narrowings (R7). -/
theorem wrapW_mul (a b : Int) : wrapW w (a * b) = wrapW w a * wrapW w b := BitVec.ofInt_mul a b

/-- The left shift is the narrowed product with a power of two of the signed reading too (R69). -/
theorem lsl_eq_wrapW (x : BitVec w) (n : Nat) : lsl x n = wrapW w (x.toInt * 2 ^ n) := by
  have h : x = wrapW w x.toNat := by simp [wrapW]
  rw [lsl, wrapW_mul, ← h, wrapW_mul, wrapW_toInt]

/-- An integer that fits is read back from its narrowing (R10). -/
theorem toInt_wrapW {n : Int} (hw : 0 < w) (h1 : -2 ^ (w - 1) ≤ n) (h2 : n < 2 ^ (w - 1)) : (wrapW w n).toInt = n :=
  BitVec.toInt_ofInt_eq_self hw h1 h2

/-- The magnitude is at most `2^(W-1)`, so it is an unsigned `W`-bit number (R59). -/
theorem mag_le (x : BitVec w) : mag x ≤ 2 ^ (w - 1) := by
  have h1 := BitVec.le_toInt x
  have h2 := BitVec.toInt_lt (x := x)
  have h3 : ((2 ^ (w - 1) : Nat) : Int) = 2 ^ (w - 1) := by push_cast; rfl
  unfold mag
  omega

/-- A natural number below `2^w` is read back from its narrowing (R10). -/
theorem toNat_wrapW {n : Nat} (h : n < 2 ^ w) : (wrapW w n).toNat = n := by
  simp [wrapW, Nat.mod_eq_of_lt h]

/-- A compare's flag on `rdata` is 1 or 0 (R54). -/
theorem flagWord_eq (W : Width) (t : Bool) : flagWord W t = if t then 1 else 0 := by
  cases W <;> cases t <;> decide

end Sys2Proof.Machine
end

