-- ==== Sys2Proof/Laws/State.lean ====
section
/-! SUPPORT. What each update of a unit does to each of its fields: one lemma per field per update, so that no later proof
unfolds a record update. -/

namespace Sys2Proof.Machine

variable {W : Width}

@[simp] theorem Fxu.writeValue_regs (u : Fxu W) (r : RegNum) (raw : BitVec W.bits) (fb : Nat) : (u.writeValue r raw fb).regs = u.regs.set r ⟨true, BitVec.ofNat 6 fb, raw⟩ := rfl
@[simp] theorem Fxu.writeValue_status (u : Fxu W) (r : RegNum) (raw : BitVec W.bits) (fb : Nat) : (u.writeValue r raw fb).status = u.status := rfl
@[simp] theorem Fxu.writeValue_txs (u : Fxu W) (r : RegNum) (raw : BitVec W.bits) (fb : Nat) : (u.writeValue r raw fb).txs = u.txs := rfl
@[simp] theorem Fxu.writeValue_cmd (u : Fxu W) (r : RegNum) (raw : BitVec W.bits) (fb : Nat) : (u.writeValue r raw fb).cmd = u.cmd := rfl
@[simp] theorem Fxu.writeValue_wdata (u : Fxu W) (r : RegNum) (raw : BitVec W.bits) (fb : Nat) : (u.writeValue r raw fb).wdata = u.wdata := rfl
@[simp] theorem Fxu.writeValue_responses (u : Fxu W) (r : RegNum) (raw : BitVec W.bits) (fb : Nat) : (u.writeValue r raw fb).responses = u.responses := rfl
@[simp] theorem Fxu.writeValue_pending (u : Fxu W) (r : RegNum) (raw : BitVec W.bits) (fb : Nat) : (u.writeValue r raw fb).pending = u.pending := rfl

/-- A register that was just written holds the value written (R14). -/
@[simp] theorem Fxu.writeValue_reg_self (u : Fxu W) (r : RegNum) (raw : BitVec W.bits) (fb : Nat) :
    (u.writeValue r raw fb).reg r = ⟨true, BitVec.ofNat 6 fb, raw⟩ := by simp [Fxu.reg]

/-- A write leaves every other register alone (R14). -/
theorem Fxu.writeValue_reg_ne (u : Fxu W) {r r' : RegNum} (h : r' ≠ r) (raw : BitVec W.bits) (fb : Nat) :
    (u.writeValue r raw fb).reg r' = u.reg r' := by
  have h' : (r : Nat) ≠ r' := fun e => h (Fin.ext e.symm)
  simp [Fxu.reg, h']

@[simp] theorem Fxu.emit_regs (u : Fxu W) (str : List Byte) : (u.emit str).regs = u.regs := rfl
@[simp] theorem Fxu.emit_status (u : Fxu W) (str : List Byte) : (u.emit str).status = u.status := rfl
@[simp] theorem Fxu.emit_txs (u : Fxu W) (str : List Byte) : (u.emit str).txs = u.txs ++ str := rfl
@[simp] theorem Fxu.emit_cmd (u : Fxu W) (str : List Byte) : (u.emit str).cmd = u.cmd := rfl
@[simp] theorem Fxu.emit_wdata (u : Fxu W) (str : List Byte) : (u.emit str).wdata = u.wdata := rfl
@[simp] theorem Fxu.emit_responses (u : Fxu W) (str : List Byte) : (u.emit str).responses = u.responses := rfl
@[simp] theorem Fxu.emit_pending (u : Fxu W) (str : List Byte) : (u.emit str).pending = u.pending := rfl

@[simp] theorem Fxu.emit_reg (u : Fxu W) (str : List Byte) (r : RegNum) : (u.emit str).reg r = u.reg r := rfl

@[simp] theorem Fxu.reply_regs (u : Fxu W) (st : BitVec 4) (d : BitVec W.bits) : (u.reply st d).regs = u.regs := rfl
@[simp] theorem Fxu.reply_status (u : Fxu W) (st : BitVec 4) (d : BitVec W.bits) : (u.reply st d).status = u.status := rfl
@[simp] theorem Fxu.reply_txs (u : Fxu W) (st : BitVec 4) (d : BitVec W.bits) : (u.reply st d).txs = u.txs := rfl
@[simp] theorem Fxu.reply_cmd (u : Fxu W) (st : BitVec 4) (d : BitVec W.bits) : (u.reply st d).cmd = u.cmd := rfl
@[simp] theorem Fxu.reply_wdata (u : Fxu W) (st : BitVec 4) (d : BitVec W.bits) : (u.reply st d).wdata = u.wdata := rfl
@[simp] theorem Fxu.reply_responses (u : Fxu W) (st : BitVec 4) (d : BitVec W.bits) : (u.reply st d).responses = u.responses ++ [⟨st, d⟩] := rfl
@[simp] theorem Fxu.reply_pending (u : Fxu W) (st : BitVec 4) (d : BitVec W.bits) : (u.reply st d).pending = u.pending := rfl

@[simp] theorem Fxu.reply_reg (u : Fxu W) (st : BitVec 4) (d : BitVec W.bits) (r : RegNum) : (u.reply st d).reg r = u.reg r := rfl

@[simp] theorem Fxu.respond_regs (u : Fxu W) (d : BitVec W.bits) : (u.respond d).regs = u.regs := rfl
@[simp] theorem Fxu.respond_status (u : Fxu W) (d : BitVec W.bits) : (u.respond d).status = u.status := rfl
@[simp] theorem Fxu.respond_txs (u : Fxu W) (d : BitVec W.bits) : (u.respond d).txs = u.txs := rfl
@[simp] theorem Fxu.respond_cmd (u : Fxu W) (d : BitVec W.bits) : (u.respond d).cmd = u.cmd := rfl
@[simp] theorem Fxu.respond_wdata (u : Fxu W) (d : BitVec W.bits) : (u.respond d).wdata = u.wdata := rfl
@[simp] theorem Fxu.respond_responses (u : Fxu W) (d : BitVec W.bits) : (u.respond d).responses = u.responses ++ [⟨0, d⟩] := rfl
@[simp] theorem Fxu.respond_pending (u : Fxu W) (d : BitVec W.bits) : (u.respond d).pending = u.pending := rfl

@[simp] theorem Fxu.respond_reg (u : Fxu W) (d : BitVec W.bits) (r : RegNum) : (u.respond d).reg r = u.reg r := rfl

@[simp] theorem Fxu.raise_regs (u : Fxu W) (c : Cause) : (u.raise c).regs = u.regs := rfl
@[simp] theorem Fxu.raise_status (u : Fxu W) (c : Cause) : (u.raise c).status = ⟨u.status.t, c.code⟩ := rfl
@[simp] theorem Fxu.raise_txs (u : Fxu W) (c : Cause) : (u.raise c).txs = u.txs := rfl
@[simp] theorem Fxu.raise_cmd (u : Fxu W) (c : Cause) : (u.raise c).cmd = u.cmd := rfl
@[simp] theorem Fxu.raise_wdata (u : Fxu W) (c : Cause) : (u.raise c).wdata = u.wdata := rfl
@[simp] theorem Fxu.raise_responses (u : Fxu W) (c : Cause) : (u.raise c).responses = u.responses ++ [⟨c.code, 0⟩] := rfl
@[simp] theorem Fxu.raise_pending (u : Fxu W) (c : Cause) : (u.raise c).pending = u.pending := rfl

@[simp] theorem Fxu.raise_reg (u : Fxu W) (c : Cause) (r : RegNum) : (u.raise c).reg r = u.reg r := rfl

@[simp] theorem Fxu.refuse_regs (u : Fxu W) : (u.refuse).regs = u.regs := rfl
@[simp] theorem Fxu.refuse_status (u : Fxu W) : (u.refuse).status = u.status := rfl
@[simp] theorem Fxu.refuse_txs (u : Fxu W) : (u.refuse).txs = u.txs := rfl
@[simp] theorem Fxu.refuse_cmd (u : Fxu W) : (u.refuse).cmd = u.cmd := rfl
@[simp] theorem Fxu.refuse_wdata (u : Fxu W) : (u.refuse).wdata = u.wdata := rfl
@[simp] theorem Fxu.refuse_responses (u : Fxu W) : (u.refuse).responses = u.responses ++ [⟨u.status.cause, 0⟩] := rfl
@[simp] theorem Fxu.refuse_pending (u : Fxu W) : (u.refuse).pending = u.pending := rfl

@[simp] theorem Fxu.refuse_reg (u : Fxu W) (r : RegNum) : (u.refuse).reg r = u.reg r := rfl

@[simp] theorem Fxu.setT_regs (u : Fxu W) (b : Bool) : (u.setT b).regs = u.regs := rfl
@[simp] theorem Fxu.setT_status (u : Fxu W) (b : Bool) : (u.setT b).status = ⟨b, u.status.cause⟩ := rfl
@[simp] theorem Fxu.setT_txs (u : Fxu W) (b : Bool) : (u.setT b).txs = u.txs := rfl
@[simp] theorem Fxu.setT_cmd (u : Fxu W) (b : Bool) : (u.setT b).cmd = u.cmd := rfl
@[simp] theorem Fxu.setT_wdata (u : Fxu W) (b : Bool) : (u.setT b).wdata = u.wdata := rfl
@[simp] theorem Fxu.setT_responses (u : Fxu W) (b : Bool) : (u.setT b).responses = u.responses := rfl
@[simp] theorem Fxu.setT_pending (u : Fxu W) (b : Bool) : (u.setT b).pending = u.pending := rfl

@[simp] theorem Fxu.setT_reg (u : Fxu W) (b : Bool) (r : RegNum) : (u.setT b).reg r = u.reg r := rfl

@[simp] theorem Fxu.rst_regs (u : Fxu W) : (u.rst).regs = Vector.replicate 16 ⟨false, 0, 0⟩ := rfl
@[simp] theorem Fxu.rst_status (u : Fxu W) : (u.rst).status = ⟨false, 0⟩ := rfl
@[simp] theorem Fxu.rst_txs (u : Fxu W) : (u.rst).txs = [] := rfl
@[simp] theorem Fxu.rst_cmd (u : Fxu W) : (u.rst).cmd = 0 := rfl
@[simp] theorem Fxu.rst_wdata (u : Fxu W) : (u.rst).wdata = 0 := rfl
@[simp] theorem Fxu.rst_responses (u : Fxu W) : (u.rst).responses = [] := rfl
@[simp] theorem Fxu.rst_pending (u : Fxu W) : (u.rst).pending = u.pending := rfl

@[simp] theorem Fxu.rst_reg (u : Fxu W) (r : RegNum) : (u.rst).reg r = ⟨false, 0, 0⟩ := by simp [Fxu.reg]

@[simp] theorem Fxu.present_regs (u : Fxu W) (c : CommandWord) (d : BitVec W.bits) (rest : List (HostEvent W)) : (u.present c d rest).regs = u.regs := rfl
@[simp] theorem Fxu.present_status (u : Fxu W) (c : CommandWord) (d : BitVec W.bits) (rest : List (HostEvent W)) : (u.present c d rest).status = u.status := rfl
@[simp] theorem Fxu.present_txs (u : Fxu W) (c : CommandWord) (d : BitVec W.bits) (rest : List (HostEvent W)) : (u.present c d rest).txs = u.txs := rfl
@[simp] theorem Fxu.present_cmd (u : Fxu W) (c : CommandWord) (d : BitVec W.bits) (rest : List (HostEvent W)) : (u.present c d rest).cmd = c := rfl
@[simp] theorem Fxu.present_wdata (u : Fxu W) (c : CommandWord) (d : BitVec W.bits) (rest : List (HostEvent W)) : (u.present c d rest).wdata = d := rfl
@[simp] theorem Fxu.present_responses (u : Fxu W) (c : CommandWord) (d : BitVec W.bits) (rest : List (HostEvent W)) : (u.present c d rest).responses = u.responses := rfl
@[simp] theorem Fxu.present_pending (u : Fxu W) (c : CommandWord) (d : BitVec W.bits) (rest : List (HostEvent W)) : (u.present c d rest).pending = rest := rfl

@[simp] theorem Fxu.present_reg (u : Fxu W) (c : CommandWord) (d : BitVec W.bits) (rest : List (HostEvent W)) (r : RegNum) : (u.present c d rest).reg r = u.reg r := rfl

/-- After reset every register holds no value (R28). -/
@[simp] theorem Fxu.afterReset_reg (r : RegNum) : (Fxu.afterReset W).reg r = ⟨false, 0, 0⟩ := by
  simp [Fxu.afterReset, Fxu.reg]

/-- A unit is faulted exactly when its fault latch is not zero (R102). -/
theorem Fxu.faulted_iff (u : Fxu W) : u.faulted = true ↔ u.status.cause ≠ 0 := by simp [Fxu.faulted]

/-- A unit is not faulted exactly when its fault latch is zero (R102). -/
theorem Fxu.not_faulted_iff (u : Fxu W) : u.faulted = false ↔ u.status.cause = 0 := by simp [Fxu.faulted]

/-- Every fault code is one of 1 to 6 (R94). -/
theorem Cause.code_range (c : Cause) : 1 ≤ c.code.toNat ∧ c.code.toNat ≤ 6 := by cases c <;> decide

/-- No fault code is the code of no fault (R94). -/
@[simp] theorem Cause.code_ne_zero (c : Cause) : c.code ≠ 0#4 := by cases c <;> decide

/-- A tag below 64 is held whole by the six bits of `fb` (R18, R19). -/
theorem ValueReg.tag_ofNat {fb : Nat} (h : fb < 64) (b : Bool) (raw : BitVec W.bits) :
    (⟨b, BitVec.ofNat 6 fb, raw⟩ : ValueReg W).tag = fb := by
  simp [ValueReg.tag, Nat.mod_eq_of_lt h]

/-- Every stored tag is below 64 (R18). -/
theorem ValueReg.tag_lt (v : ValueReg W) : v.tag < 64 := v.fb.isLt

/-- Every width is at most 64 bits (R5). -/
theorem width_le (W : Width) : W.bits ≤ 64 := by cases W <;> decide

end Sys2Proof.Machine
end

