-- ==== Sys2Proof/Laws/Ops.lean ====
section
/-! SUPPORT. For each shared operation, one lemma that says everything it can do; later proofs cite these instead of
unfolding the operation. -/

namespace Sys2Proof.Machine

variable {W : Width}

/-- A command on a faulted unit is refused (R102). -/
theorem State.command_faulted (u : Fxu W) (k : (W : Width) → Fxu W → Fxu W) (h : u.status.cause ≠ 0) :
    State.command ⟨W, u⟩ k = .next ⟨W, u.refuse⟩ := by
  simp [State.command, (Fxu.faulted_iff u).2 h]

/-- A command on a unit that is not faulted does what the command does (R53). -/
theorem State.command_running (u : Fxu W) (k : (W : Width) → Fxu W → Fxu W) (h : u.status.cause = 0) :
    State.command ⟨W, u⟩ k = .next ⟨W, k W u⟩ := by
  simp [State.command, (Fxu.not_faulted_iff u).2 h]

/-- A source that holds a value is read (R14). -/
theorem Fxu.withSource_valid (u : Fxu W) {r : RegNum} (k : BitVec W.bits → Nat → Fxu W) (h : (u.reg r).valid = true) :
    u.withSource r k = k (u.reg r).raw (u.reg r).tag := by simp [Fxu.withSource, h]

/-- A source that holds no value raises `InvalidOperand` (R96). -/
theorem Fxu.withSource_invalid (u : Fxu W) {r : RegNum} (k : BitVec W.bits → Nat → Fxu W)
    (h : (u.reg r).valid = false) : u.withSource r k = u.raise .invalidOperand := by simp [Fxu.withSource, h]

/-- Reading a source either raises `InvalidOperand` or goes on with the register's value (R14). -/
theorem Fxu.withSource_cases (u : Fxu W) (r : RegNum) (k : BitVec W.bits → Nat → Fxu W) :
    ((u.reg r).valid = false ∧ u.withSource r k = u.raise .invalidOperand) ∨
    ((u.reg r).valid = true ∧ u.withSource r k = k (u.reg r).raw (u.reg r).tag) := by
  cases h : (u.reg r).valid
  · exact .inl ⟨rfl, u.withSource_invalid k h⟩
  · exact .inr ⟨rfl, u.withSource_valid k h⟩

/-- An illegal word on a unit that is not faulted raises `IllegalCommand` (R95). -/
theorem illegalCommand_running (u : Fxu W) (h : u.status.cause = 0) :
    illegalCommand ⟨W, u⟩ = .next ⟨W, u.raise .illegalCommand⟩ := State.command_running u _ h

/-- An illegal word on a faulted unit is refused (R102). -/
theorem illegalCommand_faulted (u : Fxu W) (h : u.status.cause ≠ 0) :
    illegalCommand ⟨W, u⟩ = .next ⟨W, u.refuse⟩ := State.command_faulted u _ h

/-- What a command that is not refused can leave: a fault entry, which is `InvalidOperand` exactly when a source holds no
value; or else, all sources holding values, a written register, a written flag, emitted text, or an answer alone. A written
tag keeps the invariant if the tags of the sources do (R20, R53, R96, R103). -/
inductive Effect (i : Instr) (u : Fxu W) : Fxu W → Prop where
  | raised (c : Cause) (hc : c = .invalidOperand ↔ ∃ r ∈ i.sources, (u.reg r).valid = false) : Effect i u (u.raise c)
  | written (vd : RegNum) (raw : BitVec W.bits) (fb : Nat) (hv : ∀ r ∈ i.sources, (u.reg r).valid = true)
      (hd : i.dest = some vd) (hfb : (∀ r ∈ i.sources, (u.reg r).tag < W.bits) → fb < W.bits) :
      Effect i u ((u.writeValue vd raw fb).respond 0)
  | compared (t : Bool) (d : BitVec W.bits) (hv : ∀ r ∈ i.sources, (u.reg r).valid = true)
      (hi : ∃ va vb, i = .cmpeq va vb ∨ i = .cmpne va vb) : Effect i u ((u.setT t).respond d)
  | emitted (str : List Byte) (d : BitVec W.bits) (hv : ∀ r ∈ i.sources, (u.reg r).valid = true)
      (hi : ∃ va, i = .totext va) : Effect i u ((u.emit str).respond d)
  | answered (d : BitVec W.bits) (hv : ∀ r ∈ i.sources, (u.reg r).valid = true) (hi : i.dest = none) :
      Effect i u (u.respond d)

/-- A command with one source (R14, R96): the fault entry, or what it does with the value. -/
theorem Effect.source (i : Instr) (u : Fxu W) (va : RegNum) (k : BitVec W.bits → Nat → Fxu W) (hs : i.sources = [va])
    (hk : (u.reg va).valid = true → Effect i u (k (u.reg va).raw (u.reg va).tag)) : Effect i u (u.withSource va k) := by
  rcases u.withSource_cases va k with ⟨hv, h⟩ | ⟨hv, h⟩ <;> rw [h]
  · exact .raised _ (by simp [hs, hv])
  · exact hk hv

/-- A command with two sources (R14, R96): the fault entry, or what it does with the two values. -/
theorem Effect.sources (i : Instr) (u : Fxu W) (va vb : RegNum) (k : BitVec W.bits → Nat → BitVec W.bits → Nat → Fxu W)
    (hs : i.sources = [va, vb])
    (hk : (u.reg va).valid = true → (u.reg vb).valid = true →
      Effect i u (k (u.reg va).raw (u.reg va).tag (u.reg vb).raw (u.reg vb).tag)) :
    Effect i u (u.withSource va fun rawA fa => u.withSource vb fun rawB fb => k rawA fa rawB fb) := by
  rcases u.withSource_cases va _ with ⟨hv, h⟩ | ⟨hv, h⟩ <;> rw [h]
  · exact .raised _ (by simp [hs, hv])
  rcases u.withSource_cases vb _ with ⟨hw, h⟩ | ⟨hw, h⟩ <;> rw [h]
  · exact .raised _ (by simp [hs, hw])
  · exact hk hv hw

/-- `ADD` and `SUB`: a fault entry or a written register (R66). -/
theorem Fxu.aligned_effect (u : Fxu W) (i : Instr) (vd va vb : RegNum) (f : Int → Int → Int) (hd : i.dest = some vd)
    (hs : i.sources = [va, vb]) : Effect i u (u.aligned vd va vb f) :=
  .sources i u va vb _ hs fun ha hb =>
    .written vd _ _ (by simp [hs, ha, hb]) hd fun h => max_lt (h va (by simp [hs])) (h vb (by simp [hs]))

/-- `CMPEQ` and `CMPNE`: a fault entry or a written flag (R76). -/
theorem Fxu.compare_effect (u : Fxu W) (i : Instr) (va vb : RegNum) (test : BitVec W.bits → BitVec W.bits → Bool)
    (hi : i = .cmpeq va vb ∨ i = .cmpne va vb) : Effect i u (u.compare va vb test) := by
  have hs : i.sources = [va, vb] := by rcases hi with rfl | rfl <;> rfl
  refine .sources i u va vb _ hs fun ha hb => ?_
  split
  · exact .raised _ (by simp [hs, ha, hb])
  · exact .compared _ _ (by simp [hs, ha, hb]) ⟨va, vb, hi⟩

/-- A command with one source that only answers: a fault entry or an answer (R56 to R61). -/
theorem Fxu.answer_effect (u : Fxu W) (i : Instr) (va : RegNum) (f : BitVec W.bits → Nat → BitVec W.bits)
    (hi : i.dest = none) (hs : i.sources = [va]) :
    Effect i u (u.withSource va fun raw fb => u.respond (f raw fb)) :=
  .source i u va _ hs fun hv => .answered _ (by simp [hs, hv]) hi

/-- A command on a unit that is not faulted leaves what its effect leaves (R53). -/
theorem State.command_effect {i : Instr} {u : Fxu W} (k : (W : Width) → Fxu W → Fxu W) (h : u.status.cause = 0)
    (he : Effect i u (k W u)) : ∃ t : Fxu W, State.command ⟨W, u⟩ k = .next ⟨W, t⟩ ∧ Effect i u t :=
  ⟨_, State.command_running u k h, he⟩

/-- Whatever a command is, on a unit that is not faulted it answers a next state of the same width, and that state is one
of the effects. -/
theorem exec_effect (i : Instr) (u : Fxu W) (h : u.status.cause = 0) :
    ∃ t : Fxu W, exec i ⟨W, u⟩ = .next ⟨W, t⟩ ∧ Effect i u t := by
  cases i <;> dsimp only [exec, execLoad, execRescale, execAdd, execSub, execMul, execDiv, execCmpeq, execCmpne, execRdraw,
    execRdfb, execIpart, execFpart, execTotext, execRdstat] <;> refine State.command_effect _ h ?_
  case load vd imm8 =>
    split
    · exact .raised _ (by simp [Instr.sources])
    next hlt => exact .written vd _ _ (by simp [Instr.sources]) rfl fun _ => by simpa [immOutOfRange] using hlt
  case rescale vd va imm8 =>
    refine .source _ u va _ rfl fun hv => ?_
    split
    · exact .raised _ (by simp [Instr.sources, hv])
    next hlt =>
      split
      · exact .raised _ (by simp [Instr.sources, hv])
      · exact .written vd _ _ (by simp [Instr.sources, hv]) rfl fun _ => by simpa [immOutOfRange] using hlt
  case add vd va vb => exact u.aligned_effect _ vd va vb _ rfl rfl
  case sub vd va vb => exact u.aligned_effect _ vd va vb _ rfl rfl
  case mul vd va vb =>
    refine .sources _ u va vb _ rfl fun ha hb => ?_
    split
    · exact .raised _ (by simp [Instr.sources, ha, hb])
    next hlt => exact .written vd _ _ (by simp [Instr.sources, ha, hb]) rfl fun _ => by omega
  case div vd va vb =>
    refine .sources _ u va vb _ rfl fun ha hb => ?_
    split
    · exact .raised _ (by simp [Instr.sources, ha, hb])
    split
    · exact .raised _ (by simp [Instr.sources, ha, hb])
    · exact .written vd _ _ (by simp [Instr.sources, ha, hb]) rfl fun hs => by
        have := hs va (by simp [Instr.sources])
        omega
  case cmpeq va vb => exact u.compare_effect _ va vb _ (.inl rfl)
  case cmpne va vb => exact u.compare_effect _ va vb _ (.inr rfl)
  case rdraw va => exact u.answer_effect _ va (fun raw _ => raw) rfl rfl
  case rdfb va => exact u.answer_effect _ va (fun _ fb => wrapW W.bits fb) rfl rfl
  case ipart va => exact u.answer_effect _ va (fun raw fb => wrapW W.bits (mag raw / 2 ^ fb)) rfl rfl
  case fpart va => exact u.answer_effect _ va (fun raw fb => wrapW W.bits (mag raw % 2 ^ fb)) rfl rfl
  case totext va =>
    exact .source _ u va _ rfl fun hv => .emitted _ _ (by simp [Instr.sources, hv]) ⟨va, rfl⟩
  case rdstat => exact .answered _ (by simp [Instr.sources]) rfl

/-- On a faulted unit every command is refused (R102). -/
theorem exec_faulted (i : Instr) (u : Fxu W) (h : u.status.cause ≠ 0) : exec i ⟨W, u⟩ = .next ⟨W, u.refuse⟩ := by
  cases i <;> dsimp only [exec, execLoad, execRescale, execAdd, execSub, execMul, execDiv, execCmpeq, execCmpne, execRdraw,
    execRdfb, execIpart, execFpart, execTotext, execRdstat] <;> exact State.command_faulted u _ h

/-- Everything a command can do: a faulted unit refuses it, one that is not leaves one of the effects. -/
theorem exec_cases {i : Instr} {u t : Fxu W} (h : exec i ⟨W, u⟩ = .next ⟨W, t⟩) :
    (u.status.cause ≠ 0 ∧ t = u.refuse) ∨ (u.status.cause = 0 ∧ Effect i u t) := by
  by_cases hc : u.status.cause = 0
  · obtain ⟨t', h1, h2⟩ := exec_effect i u hc
    rw [h1] at h
    cases h
    exact .inr ⟨hc, h2⟩
  · rw [exec_faulted i u hc] at h
    cases h
    exact .inl ⟨hc, rfl⟩

/-- A step with nothing presented (log 6). -/
theorem step_nil (u : Fxu W) (h : u.pending = []) : step ⟨W, u⟩ = .next ⟨W, u⟩ := by
  simp [step, fetch, h]

/-- A step that resets (R111). -/
theorem step_rst (u : Fxu W) {rest : List (HostEvent W)} (h : u.pending = .rst :: rest) :
    step ⟨W, u⟩ = .next ⟨W, Fxu.rst { u with pending := rest }⟩ := by
  simp [step, fetch, h]

/-- A step with a legal word presented (R53). -/
theorem step_legal (u : Fxu W) {c : CommandWord} {d : BitVec W.bits} {rest : List (HostEvent W)} {i : Instr}
    (h : u.pending = .command c d :: rest) (hi : decode c = .ok i) :
    step ⟨W, u⟩ = exec i ⟨W, u.present c d rest⟩ := by
  simp [step, fetch, h, decodePresented, hi]

/-- A step with an illegal word presented (R48). -/
theorem step_illegal (u : Fxu W) {c : CommandWord} {d : BitVec W.bits} {rest : List (HostEvent W)} {why : IllegalReason}
    (h : u.pending = .command c d :: rest) (hi : decode c = .error why) :
    step ⟨W, u⟩ = illegalCommand ⟨W, u.present c d rest⟩ := by
  simp [step, fetch, h, decodePresented, hi]

/-- Everything a step with a command presented can do: refuse it on a faulted unit; else run the command the word decodes
to, or raise `IllegalCommand` (R53). -/
theorem step_command_cases (u : Fxu W) {c : CommandWord} {d : BitVec W.bits} {rest : List (HostEvent W)}
    (hp : u.pending = .command c d :: rest) :
    ∃ t : Fxu W, step ⟨W, u⟩ = .next ⟨W, t⟩ ∧
      ((u.status.cause ≠ 0 ∧ t = (u.present c d rest).refuse) ∨
        (u.status.cause = 0 ∧
          ((∃ i, decode c = .ok i ∧ Effect i (u.present c d rest) t) ∨
            (∃ why, decode c = .error why ∧ t = (u.present c d rest).raise .illegalCommand)))) := by
  by_cases hc : u.status.cause = 0
  · cases hd : decode c with
    | ok i =>
      obtain ⟨t, h1, h2⟩ := exec_effect i (u.present c d rest) hc
      exact ⟨t, by rw [step_legal u hp hd, h1], .inr ⟨hc, .inl ⟨i, rfl, h2⟩⟩⟩
    | error w =>
      exact ⟨_, by rw [step_illegal u hp hd, illegalCommand_running (u.present c d rest) hc],
        .inr ⟨hc, .inr ⟨w, rfl, rfl⟩⟩⟩
  · cases hd : decode c with
    | ok i => exact ⟨_, by rw [step_legal u hp hd, exec_faulted i (u.present c d rest) hc], .inl ⟨hc, rfl⟩⟩
    | error w => exact ⟨_, by rw [step_illegal u hp hd, illegalCommand_faulted (u.present c d rest) hc], .inl ⟨hc, rfl⟩⟩

end Sys2Proof.Machine
end

