-- ==== Sys2Proof/Laws/PerInstr.lean ====
section
/-! SUPPORT. The family `WordIsWellFormed`: every command, with any operands, is written as a word that passes the three
checks of 30_encoding.md R48 (WellFormed.lean, which the encoder of Decode.lean does not look at). -/

namespace Sys2Proof.Laws.WordIsWellFormed

/-- The fields a command is written as are well formed (R43, R48, R51). -/
def Statement (i : Instr) : Prop := (fieldsOfInstr i).wellFormed = true

theorem load (vd : RegNum) (imm8 : BitVec 8) : Statement (.load vd imm8) := rfl
theorem rescale (vd va : RegNum) (imm8 : BitVec 8) : Statement (.rescale vd va imm8) := rfl
theorem add (vd va vb : RegNum) : Statement (.add vd va vb) := rfl
theorem sub (vd va vb : RegNum) : Statement (.sub vd va vb) := rfl
theorem mul (vd va vb : RegNum) : Statement (.mul vd va vb) := rfl
theorem div (vd va vb : RegNum) : Statement (.div vd va vb) := rfl
theorem cmpeq (va vb : RegNum) : Statement (.cmpeq va vb) := rfl
theorem cmpne (va vb : RegNum) : Statement (.cmpne va vb) := rfl
theorem rdraw (va : RegNum) : Statement (.rdraw va) := rfl
theorem rdfb (va : RegNum) : Statement (.rdfb va) := rfl
theorem ipart (va : RegNum) : Statement (.ipart va) := rfl
theorem fpart (va : RegNum) : Statement (.fpart va) := rfl
theorem totext (va : RegNum) : Statement (.totext va) := rfl
theorem rdstat : Statement .rdstat := rfl

end Sys2Proof.Laws.WordIsWellFormed
end

