-- ==== Sys2Proof/Laws/Run.lean ====
section
/-! SUPPORT. One step of a run of the machine through the host's interface, and what the end of a run says. -/

namespace Sys2Proof.Machine

/-- A run whose first step answers a next state goes on from it. -/
theorem run_succ {s s' : State} (k : Nat) (h : step s = .next s') :
    Host.Core.run Sys2Proof.core (k + 1) (s : Sys2Proof.core.State) = Host.Core.run Sys2Proof.core k s' := by
  have h' : Sys2Proof.core.step s = .next s' := h
  simp only [Host.Core.run, h']

/-- A run from a state that a step leaves as it is stays there. -/
theorem run_fixed {s : State} (k : Nat) (h : step s = .next s) :
    Host.Core.run Sys2Proof.core k (s : Sys2Proof.core.State) = .next s := by
  induction k with
  | zero => rfl
  | succ k ih => rw [run_succ k h, ih]

/-- A run ended well exactly when the host presents nothing further and `CAUSE` is 0 (R121). -/
theorem State.endedWell_iff (s : State) : s.EndedWell ↔ s.fxu.pending = [] ∧ s.fxu.status.cause = 0 := by
  simp [State.EndedWell, State.Ended, Fxu.not_faulted_iff]

/-- A run failed exactly when the host presents nothing further and a fault code is latched (R121). -/
theorem State.endedFailed_iff (s : State) : s.EndedFailed ↔ s.fxu.pending = [] ∧ s.fxu.status.cause ≠ 0 := by
  simp [State.EndedFailed, State.Ended, Fxu.faulted_iff]

/-- A run that has ended ended well or failed, never both (R121). -/
theorem State.ended_cases (s : State) (h : s.Ended) :
    (s.EndedWell ∧ ¬s.EndedFailed) ∨ (s.EndedFailed ∧ ¬s.EndedWell) := by
  cases hf : s.fxu.faulted
  · exact .inl ⟨⟨h, hf⟩, fun hb => by cases hf.symm.trans hb.2⟩
  · exact .inr ⟨⟨h, hf⟩, fun hb => by cases hf.symm.trans hb.2⟩

end Sys2Proof.Machine
end

