-- ==== Sys2Proof/Tests/Slice0.lean ====
section
/-! SUPPORT. The model's own tests. Expected results come from spec/95_test_vectors.md (each test names its vector) or from
the rule named; and, for every statement with hypotheses, witnesses that meet them. -/

namespace Sys2Proof.Tests

open Sys2Proof.Machine

/-! ## Helpers -/

/-- A unit after reset with some registers written: number, signed raw value, tag. -/
def unitWith (W : Width) (values : List (RegNum × Int × Nat)) : Fxu W :=
  values.foldl (fun u v => u.writeValue v.1 (wrapW W.bits v.2.1) v.2.2) (Fxu.afterReset W)

/-- The last response of the unit a step leaves: status and `rdata`. -/
def answer : Host.Outcome State Fault Refusal → Option (Nat × Nat)
  | .next s => s.fxu.responses.getLast?.map fun a => (a.status.toNat, a.rdata.toNat)
  | _ => none

/-- A register of the unit a step leaves: valid, signed raw value, tag. -/
def value (r : RegNum) : Host.Outcome State Fault Refusal → Option (Bool × Int × Nat)
  | .next s => some ((s.fxu.reg r).valid, (s.fxu.reg r).raw.toInt, (s.fxu.reg r).tag)
  | _ => none

/-- `STATUS` of the unit a step leaves. -/
def statusOf : Host.Outcome State Fault Refusal → Option (BitVec 8)
  | .next s => some s.fxu.status.read
  | _ => none

/-- `TXS` of the unit a step leaves. -/
def text : Host.Outcome State Fault Refusal → List Byte
  | .next s => s.fxu.txs
  | _ => []

/-- A string as the bytes the text port carries (R13). -/
def bytes (s : String) : List Byte := s.toList.map fun c => BitVec.ofNat 8 c.toNat

/-- A unit with one command presented by the host. -/
def presenting {W : Width} (u : Fxu W) (c : CommandWord) (d : BitVec W.bits) : Fxu W :=
  { u with pending := [.command c d] }

/-- The unit most tests use, `W = 32`. -/
def u32 : Fxu .w32 := unitWith .w32
  [(0, 16, 4), (1, 512, 8), (2, 768, 8), (3, -384, 8), (4, 384, 8), (5, 0, 8), (6, -2147483648, 0), (7, -1, 0),
   (8, 3, 16), (9, 5, 16), (10, 5, 15), (11, 32, 4)]

/-- The same unit with a latched fault. -/
def faulted32 : Fxu .w32 := { u32 with status := ⟨true, 4⟩ }

/-! ## WellFormed: an ill-formed word for each check (R48 (a), (b), (c)) -/

theorem test_wellFormed_accepts_add : (fieldsOfWord 0x10201000#32).wellFormed = true := by decide
/-- V-E4: `op = 0x14` is unassigned. -/
theorem test_wellFormed_refuses_unassigned : (fieldsOfWord 0x14201000#32).wellFormed = false := by decide
/-- V-E11: `ADD` with `rsv = 1`. -/
theorem test_wellFormed_refuses_reserved : (fieldsOfWord 0x10201100#32).wellFormed = false := by decide
/-- V-E7, V-E9, V-E10, V-E12, V-E13, V-E16: an unused field that is not zero, one for each format. -/
theorem test_wellFormed_refuses_unused :
    [0x01010008#32, 0x02101008#32, 0x10201001#32, 0x20101000#32, 0x30100000#32, 0x50000001#32].all
      (fun c => !(fieldsOfWord c).wellFormed) = true := by decide

/-! ## Decode: words written out from R42 and R46, field by field -/

theorem test_decode_load : decodeTableWord 32 0b00000001111100000000000000011111 = some (.load 15 31#8) := by decide
theorem test_decode_rescale : decodeTableWord 32 0b00000010001000010000000000001000 = some (.rescale 2 1 8#8) := by decide
theorem test_decode_add : decodeTableWord 32 0b00010000001000000001000000000000 = some (.add 2 0 1) := by decide
theorem test_decode_sub : decodeTableWord 32 0b00010001001100010000000000000000 = some (.sub 3 1 0) := by decide
theorem test_decode_mul : decodeTableWord 32 0b00010010011000110100000000000000 = some (.mul 6 3 4) := by decide
theorem test_decode_div : decodeTableWord 32 0b00010011010100110100000000000000 = some (.div 5 3 4) := by decide
theorem test_decode_cmpeq : decodeTableWord 32 0b00100000000000100100000000000000 = some (.cmpeq 2 4) := by decide
theorem test_decode_cmpne : decodeTableWord 32 0b00100001000000100001000000000000 = some (.cmpne 2 1) := by decide
theorem test_decode_rdraw : decodeTableWord 32 0b00110000000011110000000000000000 = some (.rdraw 15) := by decide
theorem test_decode_rdfb : decodeTableWord 32 0b00110001000000100000000000000000 = some (.rdfb 2) := by decide
theorem test_decode_ipart : decodeTableWord 32 0b00110010000000110000000000000000 = some (.ipart 3) := by decide
theorem test_decode_fpart : decodeTableWord 32 0b00110011000000110000000000000000 = some (.fpart 3) := by decide
theorem test_decode_totext : decodeTableWord 32 0b01000000000000100000000000000000 = some (.totext 2) := by decide
theorem test_decode_rdstat : decodeTableWord 32 0b01010000000000000000000000000000 = some .rdstat := by decide
/-- V-E1, V-E2, V-E3, V-E5: unassigned operation codes. -/
theorem test_decode_unassigned : [0x00000000#32, 0xFFFFFFFF#32, 0x03000000#32, 0x22001000#32].all
    (fun c => match decode c with | .error .unassignedOp => true | _ => false) = true := by decide
/-- V-E6, V-E11: the reserved field. -/
theorem test_decode_reserved : [0x01000108#32, 0x10201100#32].all
    (fun c => match decode c with | .error .reservedNotZero => true | _ => false) = true := by decide
/-- V-E8, V-E14, V-E15, V-E17: unused fields. -/
theorem test_decode_unused : [0x01001008#32, 0x40001000#32, 0x40000001#32, 0x50100000#32].all
    (fun c => match decode c with | .error .unusedNotZero => true | _ => false) = true := by decide
/-- R51 with P1 and P6: encoding gives the spec's words. -/
theorem test_encode_words : encode (.sub 4 3 3) = 0x11433000#32 ∧ encode (.load 1 8#8) = 0x01100008#32 := by decide

/-! ## Commands: vectors of 95_test_vectors.md, one step each -/

/-- V-L4, `W = 8`: `LOAD v3, #7, 0x80`. -/
theorem test_load : value 3 (exec (.load 3 7#8) ⟨.w8, { unitWith .w8 [] with wdata := 0x80#8 }⟩) = some (true, -128, 7) := by
  decide
/-- V-L5, `W = 8`: the tag 8 is out of range. -/
theorem test_load_config : answer (exec (.load 3 8#8) ⟨.w8, unitWith .w8 []⟩) = some (3, 0) := by decide
/-- V-R9, `W = 8`: `48@0` to 2 fractional bits wraps to `-64@2`. -/
theorem test_rescale : value 1 (exec (.rescale 1 0 2#8) ⟨.w8, unitWith .w8 [(0, 48, 0)]⟩) = some (true, -64, 2) := by decide
/-- V-R14: a narrowing is refused with code 6. -/
theorem test_rescale_down : answer (exec (.rescale 1 4 4#8) ⟨.w32, u32⟩) = some (6, 0) := by decide
/-- V-S1: 16@4 + 512@8. -/
theorem test_add : value 2 (exec (.add 2 0 1) ⟨.w32, u32⟩) = some (true, 768, 8) := by decide
/-- V-S12: the alignment shift wraps before the addition. -/
theorem test_add_wraps : value 2 (exec (.add 2 0 1) ⟨.w32, unitWith .w32 [(0, 8388608, 0), (1, 1, 8)]⟩) =
    some (true, -2147483647, 8) := by decide
/-- V-S4: 16@4 - 512@8. -/
theorem test_sub : value 2 (exec (.sub 2 0 1) ⟨.w32, u32⟩) = some (true, -256, 8) := by decide
/-- V-S14, `W = 8`: -128 - 1 wraps. -/
theorem test_sub_wraps : value 2 (exec (.sub 2 0 1) ⟨.w8, unitWith .w8 [(0, -128, 0), (1, 1, 0)]⟩) = some (true, 127, 0) := by
  decide
/-- V-M3: -384@8 * 512@8. -/
theorem test_mul : value 2 (exec (.mul 2 3 1) ⟨.w32, u32⟩) = some (true, -196608, 16) := by decide
/-- V-M9: the product wraps. -/
theorem test_mul_wraps : value 2 (exec (.mul 2 0 1) ⟨.w32, unitWith .w32 [(0, 46341, 0), (1, 46341, 0)]⟩) =
    some (true, -2147479015, 0) := by decide
/-- V-D22, `W = 64`: 10^18@32 / -3@0 rounds toward zero. -/
theorem test_div : value 2 (exec (.div 2 0 1) ⟨.w64, unitWith .w64 [(0, 10 ^ 18, 32), (1, -3, 0)]⟩) =
    some (true, -333333333333333333, 32) := by decide
/-- V-D17: the tag check comes before the divisor test. -/
theorem test_div_priority : answer (exec (.div 2 0 5) ⟨.w32, u32⟩) = some (3, 0) := by decide
/-- V-C1, V-C14: equal values set `T`. -/
theorem test_cmpeq : statusOf (exec (.cmpeq 2 2) ⟨.w32, u32⟩) = some 0x01#8 := by decide
/-- V-C7: different tags fault with code 5. -/
theorem test_cmpeq_mismatch : answer (exec (.cmpeq 0 1) ⟨.w32, u32⟩) = some (5, 0) := by decide
/-- V-C4. -/
theorem test_cmpne : answer (exec (.cmpne 2 1) ⟨.w32, u32⟩) = some (0, 1) := by decide
/-- V-F13: a fault leaves `T` as it was. -/
theorem test_cmpne_keeps_t : statusOf (exec (.cmpne 0 1) ⟨.w32, u32.setT true⟩) = some 0x51#8 := by decide
/-- V-A3. -/
theorem test_rdraw : answer (exec (.rdraw 3) ⟨.w32, u32⟩) = some (0, 0xFFFFFE80) := by decide
/-- V-A21, `W = 64`. -/
theorem test_rdfb : answer (exec (.rdfb 0) ⟨.w64, unitWith .w64 [(0, -2 ^ 63, 63)]⟩) = some (0, 63) := by decide
/-- V-A11: the magnitude of `MIN`. -/
theorem test_ipart : answer (exec (.ipart 6) ⟨.w32, u32⟩) = some (0, 0x80000000) := by decide
/-- V-A3: truncation toward zero of -1.5. -/
theorem test_ipart_negative : answer (exec (.ipart 3) ⟨.w32, u32⟩) = some (0, 1) := by decide
/-- V-A8. -/
theorem test_fpart : answer (exec (.fpart 0) ⟨.w32, unitWith .w32 [(0, -305419896, 16)]⟩) = some (0, 0x5678) := by decide
/-- V-A10: no fraction bits. -/
theorem test_fpart_none : answer (exec (.fpart 0) ⟨.w32, unitWith .w32 [(0, 2147483647, 0)]⟩) = some (0, 0) := by decide
/-- V-T24. -/
theorem test_totext : text (exec (.totext 0) ⟨.w32, unitWith .w32 [(0, -205887, 16)]⟩) = bytes "-3.1415710447" := by decide
/-- V-T79, `W = 64`. -/
theorem test_totext_64 : text (exec (.totext 0) ⟨.w64, unitWith .w64 [(0, -2147483648, 32)]⟩) =
    bytes "-0.49999999976716935630" := by decide
/-- V-C15 and V-C14: `RDSTAT` shows `T`. -/
theorem test_rdstat : answer (exec .rdstat ⟨.w32, u32.setT true⟩) = some (0, 1) := by decide
/-- V-F8: a faulted unit refuses `RDSTAT` too, with `rdata` 0. -/
theorem test_rdstat_refused : answer (exec .rdstat ⟨.w32, faulted32⟩) = some (4, 0) := by decide

/-- R93, the last terms of the spec's tables. -/
theorem test_terms : term .w8 7 = 7 ∧ term .w16 15 = 3 ∧ term .w32 31 = 4 ∧ term .w64 63 = 10 := by decide
/-- V-F10: reset is the only exit from the faulted state. -/
theorem test_reset_event : statusOf (step ⟨.w32, { faulted32 with pending := [.rst] }⟩) = some 0x00#8 := by decide
/-- V-F7: an illegal word on a faulted unit is refused with the first code. -/
theorem test_illegal_refused : answer (step ⟨.w32, presenting faulted32 0 0⟩) = some (4, 0) := by decide
/-- V-E4 on a unit after reset. -/
theorem test_illegal : answer (step ⟨.w32, presenting (Fxu.afterReset .w32) 0x14201000#32 0⟩) = some (1, 0) := by decide
/-- V-E18: a table word placed for the next step runs first after reset. -/
theorem test_withFetchWord : answer (step (State.reset.withFetchWord 32 0x50000000)) = some (0, 0) := by decide

/-- R13: the numerals of 0, -1 and -12. -/
theorem test_sdec : sdec 0 = bytes "0" ∧ sdec (-1) = bytes "-1" ∧ sdec (-12) = bytes "-12" := by decide
/-- R121: with the last command still to come the run has not ended, well or otherwise, although no fault is latched; after
its response it has ended well. -/
theorem test_ended_well : ¬State.EndedWell (State.launch .w32 [(0x50000000#32, 0)]) ∧
    ∃ t : Fxu .w32, step (State.launch .w32 [(0x50000000#32, 0)]) = .next ⟨.w32, t⟩ ∧ State.EndedWell ⟨.w32, t⟩ :=
  ⟨fun h => absurd h.1 (by simp [State.Ended, State.launch]), ((Fxu.afterReset .w32).present 0x50000000#32 0 []).respond 0,
    by rw [State.launch, step_legal (i := .rdstat) _ rfl (by decide)]; rfl, rfl, rfl⟩
/-- R121: a run whose one command reads a register that holds no value (R96) has failed. -/
theorem test_ended_failed : ∃ t : Fxu .w32,
    step (State.launch .w32 [(0x300F0000#32, 0)]) = .next ⟨.w32, t⟩ ∧ State.EndedFailed ⟨.w32, t⟩ :=
  ⟨((Fxu.afterReset .w32).present 0x300F0000#32 0 []).raise .invalidOperand,
    by rw [State.launch, step_legal (i := .rdraw 15) _ rfl (by decide)]; rfl, rfl, rfl⟩

/-! ## Witnesses: for every statement with hypotheses, a state and operands that meet them all -/

theorem test_witness_EncodeOfDecodeIsTheWord : decode 0x10201000#32 = .ok (.add 2 0 1) := by decide
theorem test_witness_IllegalWordsTrap :
    (presenting u32 0x14201000#32 7).pending = .command 0x14201000#32 7 :: [] ∧
    (presenting u32 0x14201000#32 7).status.cause = 0 ∧
    ∀ row ∈ opcodeMap, 0x14201000#32 &&& row.2.2 ≠ row.2.1 := ⟨rfl, by decide, by decide⟩
theorem test_witness_ResetEventResetsTheUnit :
    ({ faulted32 with pending := [.rst] } : Fxu .w32).pending = .rst :: [] := rfl
theorem test_witness_NothingPresentedNothingChanges : (Fxu.afterReset .w32).pending = [] := rfl
theorem test_witness_StepRunsTheDecodedCommand :
    (presenting u32 0x10201000#32 7).pending = .command 0x10201000#32 7 :: [] ∧
    decode 0x10201000#32 = .ok (.add 2 0 1) := ⟨rfl, by decide⟩
theorem test_witness_FetchWordIsRunNext : decodeTableWord 32 0x10201000 = some (.add 2 0 1) := by decide

/-- The largest legal immediate. -/
theorem test_witness_LoadCreatesTheValue : u32.status.cause = 0 ∧ (31#8).toNat < Width.w32.bits := by decide
/-- Both ends of the legal range: the source's own tag, and the largest. -/
theorem test_witness_RescaleShiftsLeft : u32.status.cause = 0 ∧ (u32.reg 3).valid = true ∧
    (u32.reg 3).tag ≤ (8#8).toNat ∧ (8#8).toNat < Width.w32.bits ∧
    (u32.reg 3).tag ≤ (31#8).toNat ∧ (31#8).toNat < Width.w32.bits := by decide
/-- Two sources of different tags and the same source twice, for `ADD` and `SUB`. -/
theorem test_witness_AddSumsTheAlignedOperands :
    u32.status.cause = 0 ∧ (u32.reg 0).valid = true ∧ (u32.reg 1).valid = true := by decide
theorem test_witness_SubSubtractsTheAlignedOperands :
    u32.status.cause = 0 ∧ (u32.reg 1).valid = true ∧ (u32.reg 1).valid = true := by decide
/-- The largest legal tag sum (V-M6). -/
theorem test_witness_MulMultipliesUnshifted : u32.status.cause = 0 ∧ (u32.reg 8).valid = true ∧
    (u32.reg 10).valid = true ∧ (u32.reg 8).tag + (u32.reg 10).tag < Width.w32.bits := by decide
/-- Equal tags, the boundary of the tag check. -/
theorem test_witness_DivTruncatesTowardZero : u32.status.cause = 0 ∧ (u32.reg 3).valid = true ∧
    (u32.reg 1).valid = true ∧ (u32.reg 1).tag ≤ (u32.reg 3).tag ∧ (u32.reg 1).raw ≠ 0 := by decide
theorem test_witness_ComparesWriteAndReturnT : u32.status.cause = 0 ∧ (u32.reg 3).valid = true ∧
    (u32.reg 1).valid = true ∧ (u32.reg 3).fb = (u32.reg 1).fb := by decide
theorem test_witness_RawAndTagAreReadBack : u32.status.cause = 0 ∧ (u32.reg 3).valid = true := by decide
/-- `MIN_W`, the one magnitude that is not below `2^(W-1)`. -/
theorem test_witness_PartsRebuildTheMagnitude : u32.status.cause = 0 ∧ (u32.reg 6).valid = true := by decide
theorem test_witness_StatusReadReturnsT : (u32.setT true).status.cause = 0 := by decide
theorem test_witness_TotextEmitsTheRendering : u32.status.cause = 0 ∧ (u32.reg 3).valid = true := by decide

/-- First clause: `va` invalid, and `vb` invalid. -/
theorem test_witness_InvalidSourcesTrap : u32.status.cause = 0 ∧
    (∃ r ∈ (Instr.rdraw 15).sources, (u32.reg r).valid = false) ∧
    (∃ r ∈ (Instr.div 0 1 15).sources, (u32.reg r).valid = false) := by decide
/-- Second clause: valid sources, an invalid destination. -/
theorem test_witness_InvalidSourcesTrap_valid : u32.status.cause = 0 ∧ (u32.reg 15).valid = false ∧
    (∀ r ∈ (Instr.add 15 0 1).sources, (u32.reg r).valid = true) ∧
    ∃ t : Fxu .w32, exec (.add 15 0 1) ⟨.w32, u32⟩ = .next ⟨.w32, t⟩ := ⟨by decide, by decide, by decide, _, rfl⟩
/-- The three clauses at their boundary: immediate 32 for the first two, the tag less one for the third. -/
theorem test_witness_LoadAndRescaleTrap : u32.status.cause = 0 ∧ Width.w32.bits ≤ (32#8).toNat ∧
    (u32.reg 3).valid = true ∧ (7#8).toNat < Width.w32.bits ∧ (7#8).toNat < (u32.reg 3).tag := by decide
/-- `MUL`: the smallest illegal tag sum (V-M7). -/
theorem test_witness_MulAndDivTrap_mul : u32.status.cause = 0 ∧ (u32.reg 8).valid = true ∧ (u32.reg 9).valid = true ∧
    Width.w32.bits ≤ (u32.reg 8).tag + (u32.reg 9).tag := by decide
/-- `DIV`, tag check: a dividend tag one below the divisor's. -/
theorem test_witness_MulAndDivTrap_tags : u32.status.cause = 0 ∧ (u32.reg 10).valid = true ∧ (u32.reg 9).valid = true ∧
    (u32.reg 10).tag < (u32.reg 9).tag := by decide
/-- `DIV`, zero divisor of equal tag. -/
theorem test_witness_MulAndDivTrap_zero : u32.status.cause = 0 ∧ (u32.reg 3).valid = true ∧ (u32.reg 5).valid = true ∧
    (u32.reg 5).tag ≤ (u32.reg 3).tag ∧ (u32.reg 5).raw = 0 := by decide
theorem test_witness_ComparesTrapOnDifferentTags : u32.status.cause = 0 ∧ (u32.reg 0).valid = true ∧
    (u32.reg 1).valid = true ∧ (u32.reg 0).fb ≠ (u32.reg 1).fb := by decide
theorem test_witness_FaultedUnitRefusesEveryCommand :
    (presenting faulted32 0x50000000#32 0).pending = .command 0x50000000#32 0 :: [] ∧
    (presenting faulted32 0x50000000#32 0).status.cause ≠ 0 := ⟨rfl, by decide⟩
theorem test_witness_FaultEntryIsPrecise : ∃ t : Fxu .w32,
    (presenting u32 0x300F0000#32 0).pending = .command 0x300F0000#32 0 :: [] ∧
    (presenting u32 0x300F0000#32 0).status.cause = 0 ∧
    step ⟨.w32, presenting u32 0x300F0000#32 0⟩ = .next ⟨.w32, t⟩ ∧ t.status.cause ≠ 0 :=
  ⟨Fxu.raise (u32.present 0x300F0000#32 0 []) .invalidOperand, rfl, by decide,
    by rw [step_legal (i := .rdraw 15) _ rfl (by decide)]; rfl, by decide⟩

theorem test_witness_WritersLeaveTheRest : (Instr.add 2 0 1).dest = some 2 ∧
    ∃ t : Fxu .w32, exec (.add 2 0 1) ⟨.w32, u32⟩ = .next ⟨.w32, t⟩ := ⟨rfl, _, rfl⟩
theorem test_witness_ReadersLeaveEverything :
    ((∃ va, Instr.ipart 3 = .rdraw va ∨ Instr.ipart 3 = .rdfb va ∨ Instr.ipart 3 = .ipart va ∨ Instr.ipart 3 = .fpart va) ∨
      Instr.ipart 3 = .rdstat) ∧
    ∃ t : Fxu .w32, exec (.ipart 3) ⟨.w32, u32⟩ = .next ⟨.w32, t⟩ := ⟨.inl ⟨3, by simp⟩, _, rfl⟩
theorem test_witness_ComparesChangeOnlyT : (Instr.cmpeq 2 1 = .cmpeq 2 1 ∨ Instr.cmpeq 2 1 = .cmpne 2 1) ∧
    ∃ t : Fxu .w32, exec (.cmpeq 2 1) ⟨.w32, u32⟩ = .next ⟨.w32, t⟩ := ⟨.inl rfl, _, rfl⟩
theorem test_witness_TotextChangesOnlyTheText :
    ∃ t : Fxu .w32, exec (.totext 3) ⟨.w32, u32⟩ = .next ⟨.w32, t⟩ := ⟨_, rfl⟩
theorem test_witness_EveryCommandGetsOneResponse :
    (presenting u32 0x10201000#32 7).pending = .command 0x10201000#32 7 :: [] := rfl
/-- First clause: a word that is no `LOAD`. -/
theorem test_witness_DataOperandIsReadByLoadOnly :
    (presenting u32 0x10201000#32 7).pending = .command 0x10201000#32 7 :: [] ∧
    ∀ vd imm8, decode 0x10201000#32 ≠ .ok (.load vd imm8) := by
  refine ⟨rfl, fun vd imm8 => ?_⟩
  rw [show decode 0x10201000#32 = .ok (.add 2 0 1) by decide]
  exact nofun
/-- Second clause: `LOAD` with the largest legal immediate. -/
theorem test_witness_DataOperandIsReadByLoadOnly_load :
    (presenting u32 0x01F0001F#32 7).pending = .command 0x01F0001F#32 7 :: [] ∧
    decode 0x01F0001F#32 = .ok (.load 15 31#8) ∧ (presenting u32 0x01F0001F#32 7).status.cause = 0 ∧
    (31#8).toNat < Width.w32.bits := ⟨rfl, by decide, by decide, by decide⟩
theorem test_witness_FlagSteersNoCommand : Instr.cmpeq 2 1 ≠ .rdstat := by decide
theorem test_witness_OnlyResetClears : ∃ t : Fxu .w32,
    (presenting u32 0x50000000#32 0).pending.head? ≠ some .rst ∧
    step ⟨.w32, presenting u32 0x50000000#32 0⟩ = .next ⟨.w32, t⟩ :=
  ⟨Fxu.respond (u32.present 0x50000000#32 0 []) 0, by decide,
    by rw [step_legal (i := .rdstat) _ rfl (by decide)]; rfl⟩
theorem test_witness_StepKeepsTheInvariant :
    State.reset.Inv ∧ step State.reset = .next State.reset :=
  ⟨⟨fun r h => by simp [State.reset, State.resetAt] at h, by decide⟩, rfl⟩
theorem test_witness_FaultedUntilReset : (presenting faulted32 0x50000000#32 0).status.cause ≠ 0 ∧
    ∀ e ∈ (presenting faulted32 0x50000000#32 0).pending.take 3, e ≠ .rst := by decide

theorem test_witness_AddAndSubAreExactWithoutOverflow : u32.status.cause = 0 ∧ (u32.reg 0).valid = true ∧
    (u32.reg 1).valid = true ∧ fits .w32 ((u32.reg 0).raw.toInt * 2 ^ 4) ∧ fits .w32 ((u32.reg 1).raw.toInt * 2 ^ 0) ∧
    max (u32.reg 0).tag (u32.reg 1).tag = (u32.reg 0).tag + 4 ∧ max (u32.reg 0).tag (u32.reg 1).tag = (u32.reg 1).tag ∧
    fits .w32 ((u32.reg 0).raw.toInt * 2 ^ 4 + (u32.reg 1).raw.toInt * 2 ^ 0) ∧
    fits .w32 ((u32.reg 0).raw.toInt * 2 ^ 4 - (u32.reg 1).raw.toInt * 2 ^ 0) := by decide
theorem test_witness_MulIsExactWithoutOverflow : u32.status.cause = 0 ∧ (u32.reg 3).valid = true ∧
    (u32.reg 1).valid = true ∧ (u32.reg 3).tag + (u32.reg 1).tag < Width.w32.bits ∧
    fits .w32 ((u32.reg 3).raw.toInt * (u32.reg 1).raw.toInt) := by decide
theorem test_witness_DivRoundsTheRealQuotientTowardZero : u32.status.cause = 0 ∧ (u32.reg 3).valid = true ∧
    (u32.reg 0).valid = true ∧ (u32.reg 0).tag ≤ (u32.reg 3).tag ∧ (u32.reg 0).raw ≠ 0 ∧
    ¬((u32.reg 3).raw.toInt = -2 ^ (Width.w32.bits - 1) ∧ (u32.reg 0).raw.toInt = -1) := by decide
theorem test_witness_RescaleKeepsTheRealValue : u32.status.cause = 0 ∧ (u32.reg 0).valid = true ∧
    (u32.reg 0).tag ≤ (8#8).toNat ∧ (8#8).toNat < Width.w32.bits ∧
    fits .w32 ((u32.reg 0).raw.toInt * 2 ^ ((8#8).toNat - (u32.reg 0).tag)) := by decide
theorem test_witness_RescaleThenCompareComparesRealValues : u32.status.cause = 0 ∧ (u32.reg 0).valid = true ∧
    (u32.reg 1).valid = true ∧ (15 : RegNum) ≠ 1 ∧ (u32.reg 0).tag ≤ (u32.reg 1).tag ∧
    (u32.reg 1).tag < Width.w32.bits ∧
    fits .w32 ((u32.reg 0).raw.toInt * 2 ^ ((u32.reg 1).tag - (u32.reg 0).tag)) := by decide
theorem test_witness_MinDividedByMinusOneIsMin : u32.status.cause = 0 ∧ (u32.reg 6).valid = true ∧
    (u32.reg 7).valid = true ∧ (u32.reg 7).tag ≤ (u32.reg 6).tag ∧
    (u32.reg 6).raw = BitVec.intMin Width.w32.bits ∧ (u32.reg 7).raw = -1 := by decide
theorem test_witness_CompareLaws : u32.status.cause = 0 ∧ (u32.reg 2).valid = true ∧ (u32.reg 3).valid = true ∧
    (u32.reg 2).fb = (u32.reg 3).fb := by decide

theorem test_witness_AccumulatorNeverCarries : 31 < Width.w32.bits := by decide
theorem test_witness_TextLengthIsBounded : 31 < Width.w32.bits := by decide
/-- Whole and not negative: 768@8, that is 3.0 (V-T5). -/
theorem test_witness_WholeNumbersRenderWithPointZero :
    0 ≤ (768#32).toInt ∧ (768#32).toNat % 2 ^ 8 = 0 := by decide
/-- The largest exact count, with a value of each sign. -/
theorem test_witness_TextFiguresAreExactUpToPrecision :
    10 ≤ precision .w32 ∧ 0 ≤ (1#32).toInt ∧ (0x80000000#32).toInt < 0 := by decide

/-- The last two clauses, where they meet: 0 and -1. -/
theorem test_witness_DecimalNumeralsAreShortest : (0 : Int) ≤ 0 ∧ (-1 : Int) < 0 := by decide
/-- First clause: before the only command; second clause: after it. -/
theorem test_witness_RunEndsAfterTheLastResponse :
    0 < [((0x50000000#32 : CommandWord), (0 : BitVec Width.w32.bits))].length ∧
    [((0x50000000#32 : CommandWord), (0 : BitVec Width.w32.bits))].length ≤ 1 := by decide

end Sys2Proof.Tests
end

/-! ## Proofs: the statements of the scope (00_scope.md)

The whole next state of `RESCALE` and `DIV` (R11, R12), what a step does to what the host will do next and so how far a run
gets (R37, R121), the decimal numerals (R13) and the precision scale (R8). -/

namespace Sys2Proof.Machine

variable {W : Width}

/-! ### RESCALE -/

/-- The immediate check lets through exactly what stays below `W` (R44). -/
theorem immOutOfRange_eq_false_iff {imm8 : BitVec 8} : immOutOfRange W imm8 = false ↔ imm8.toNat < W.bits := by
  simp [immOutOfRange]

/-- `RESCALE` past its checks writes the shifted value (R63). -/
theorem exec_rescale_completes (u : Fxu W) (vd : RegNum) {va : RegNum} {imm8 : BitVec 8} (hc : u.status.cause = 0)
    (hv : (u.reg va).valid = true) (hle : (u.reg va).tag ≤ imm8.toNat) (hlt : imm8.toNat < W.bits) :
    exec (.rescale vd va imm8) ⟨W, u⟩ =
      .next ⟨W, (u.writeValue vd (rescaleUp (u.reg va).raw (u.reg va).tag imm8.toNat) imm8.toNat).respond 0⟩ := by
  rw [exec, execRescale, State.command_running u _ hc, u.withSource_valid _ hv,
    if_neg (Bool.eq_false_iff.mp (immOutOfRange_eq_false_iff.2 hlt)), if_neg (Nat.not_lt.2 hle)]

/-- Settles O13: past its checks `RESCALE` writes what the barrel shifter gives, and that is the shift of bit vectors. -/
theorem rescaleShiftsLeft : Obligations.RescaleShiftsLeft := by
  intro W u vd va imm8 hc hv hle hlt
  rw [exec_rescale_completes u vd hc hv hle hlt, rescaleUp, lsl_eq_shiftLeft, Fxu.writeValue, BitVec.ofNat_toNat]
  rfl

/-! ### DIV -/

/-- The narrowed truncating quotient of the signed readings is the library's signed division, `MIN_W / -1` included
(R12, R72). -/
theorem wrapW_tdiv_toInt {w : Nat} (a b : BitVec w) : wrapW w (tdiv a.toInt b.toInt) = a.sdiv b :=
  BitVec.eq_of_toInt_eq (by rw [wrapW, tdiv, BitVec.toInt_ofInt, BitVec.toInt_sdiv])

/-- The difference of two tags, where it is not negative, is the difference of the six-bit fields (R72). -/
theorem ValueReg.ofNat_tag_sub {a b : ValueReg W} (h : b.tag ≤ a.tag) : BitVec.ofNat 6 (a.tag - b.tag) = a.fb - b.fb := by
  rw [← BitVec.ofNat_sub_ofNat_of_le _ _ b.tag_lt h]
  simp [ValueReg.tag]

/-- `DIV` past its checks writes the narrowed quotient (R72). -/
theorem exec_div_completes (u : Fxu W) (vd : RegNum) {va vb : RegNum} (hc : u.status.cause = 0)
    (ha : (u.reg va).valid = true) (hb : (u.reg vb).valid = true) (hle : (u.reg vb).tag ≤ (u.reg va).tag)
    (hz : (u.reg vb).raw ≠ 0#W.bits) :
    exec (.div vd va vb) ⟨W, u⟩ =
      .next ⟨W, (u.writeValue vd (wrapW W.bits (tdiv (u.reg va).raw.toInt (u.reg vb).raw.toInt))
        ((u.reg va).tag - (u.reg vb).tag)).respond 0⟩ := by
  rw [exec, execDiv, State.command_running u _ hc, u.withSource_valid _ ha, u.withSource_valid _ hb,
    if_neg (Nat.not_lt.2 hle), if_neg hz]

/-- Settles O17: past its checks `DIV` writes the narrowed quotient, which is the signed division of bit vectors, and the
difference of the tags. -/
theorem divTruncatesTowardZero : Obligations.DivTruncatesTowardZero := by
  intro W u vd va vb hc ha hb hle hz
  rw [exec_div_completes u vd hc ha hb hle hz, wrapW_tdiv_toInt, Fxu.writeValue, ValueReg.ofNat_tag_sub hle]
  rfl

/-! ### Runs -/

/-- No command changes what the host will do next (R119). -/
theorem Effect.pending_eq {i : Instr} {u t : Fxu W} (h : Effect i u t) : t.pending = u.pending := by
  cases h <;> rfl

/-- Every step answers a next state of the same width and takes one of the host's acts, if there is one
(R5, R37, R117). -/
theorem step_takes_one_event (u : Fxu W) :
    ∃ t : Fxu W, step ⟨W, u⟩ = .next ⟨W, t⟩ ∧ t.pending = u.pending.tail := by
  match hp : u.pending with
  | [] => exact ⟨u, step_nil u hp, hp⟩
  | .rst :: rest => exact ⟨_, step_rst u hp, rfl⟩
  | .command c d :: rest =>
    obtain ⟨t, hstep, ⟨_, rfl⟩ | ⟨_, ⟨i, _, heff⟩ | ⟨_, _, rfl⟩⟩⟩ := step_command_cases u hp
    · exact ⟨_, hstep, rfl⟩
    · exact ⟨t, hstep, heff.pending_eq⟩
    · exact ⟨_, hstep, rfl⟩

/-- Settles O39, by induction on the number of steps. -/
theorem runsNeverStop : Obligations.RunsNeverStop := by
  intro k W
  induction k with
  | zero => exact fun u => ⟨u, rfl, rfl⟩
  | succ k ih =>
    intro u
    obtain ⟨v, hstep, hv⟩ := step_takes_one_event u
    obtain ⟨t, hrun, ht⟩ := ih v
    exact ⟨t, (run_succ k hstep).trans hrun, by rw [ht, hv, List.drop_tail]⟩

/-! ### Decimal numerals -/

/-- The code of a digit's character (R13). -/
theorem toNat_charDigit {d : Nat} (h : d < 10) : (charDigit d).toNat = 0x30 + d := by
  rw [charDigit, BitVec.toNat_ofNat, Nat.mod_eq_of_lt (by omega)]

/-- The character `0` stands for the digit zero only (R13). -/
theorem charDigit_eq_zero_iff {d : Nat} (h : d < 10) : charDigit d = 0x30#8 ↔ d = 0 := by
  rw [← BitVec.toNat_inj, toNat_charDigit h]
  simp

/-- With enough fuel the numeral of a positive number is its digits in Mathlib's sense, the most significant first. -/
theorem digits_eq_map_charDigit {fuel n : Nat} (hn : n ≠ 0) (h : n < 2 ^ fuel) :
    digits fuel n = ((Nat.digits 10 n).map charDigit).reverse := by
  induction fuel generalizing n with
  | zero => omega
  | succ fuel ih =>
    by_cases hlt : n < 10
    · simp [digits, hlt, Nat.digits_of_lt 10 n hn hlt]
    · have hrest : digits fuel (n / 10) = ((Nat.digits 10 (n / 10)).map charDigit).reverse := ih (by omega) (by omega)
      rw [digits, if_neg hlt, hrest, Nat.digits_def' (by omega) (by omega : 0 < n), List.map_cons, List.reverse_cons]

/-- The numeral of zero (R13). -/
@[simp] theorem dec_zero : dec 0 = [0x30#8] := rfl

/-- The numeral of a positive number is its digits, the most significant first (R13). -/
theorem dec_eq_map_charDigit {n : Nat} (hn : n ≠ 0) : dec n = ((Nat.digits 10 n).map charDigit).reverse :=
  digits_eq_map_charDigit hn Nat.lt_log2_self

/-- Every character of a numeral is that of a digit (R13). -/
theorem mem_dec {n : Nat} {c : Byte} (hc : c ∈ dec n) : ∃ d < 10, charDigit d = c := by
  rcases eq_or_ne n 0 with rfl | hn
  · exact ⟨0, by omega, (List.mem_singleton.1 hc).symm⟩
  · rw [dec_eq_map_charDigit hn, List.mem_reverse, List.mem_map] at hc
    obtain ⟨d, hd, rfl⟩ := hc
    exact ⟨d, Nat.digits_lt_base (by omega) hd, rfl⟩

/-- The number a string of decimal digits stands for, the most significant first (R13). -/
def numeralValue (s : List Byte) : Nat := s.foldl (fun v c => 10 * v + (c.toNat - 0x30)) 0

/-- One more digit at the end (R13). -/
theorem numeralValue_concat (s : List Byte) (c : Byte) :
    numeralValue (s ++ [c]) = 10 * numeralValue s + (c.toNat - 0x30) := List.foldl_append

/-- Reading the characters of a list of digits, the least significant first, gives the number of base 10 they make. -/
theorem numeralValue_reverse_map_charDigit {ds : List Nat} (h : ∀ d ∈ ds, d < 10) :
    numeralValue (ds.map charDigit).reverse = Nat.ofDigits 10 ds := by
  induction ds with
  | nil => rfl
  | cons d ds ih =>
    obtain ⟨hd, hds⟩ := List.forall_mem_cons.1 h
    rw [List.map_cons, List.reverse_cons, numeralValue_concat, ih hds, toNat_charDigit hd, Nat.ofDigits_cons,
      Nat.add_sub_cancel_left, Nat.add_comm]

/-- A numeral stands for its number (R13). -/
theorem numeralValue_dec (n : Nat) : numeralValue (dec n) = n := by
  rcases eq_or_ne n 0 with rfl | hn
  · rfl
  · rw [dec_eq_map_charDigit hn, numeralValue_reverse_map_charDigit fun d => Nat.digits_lt_base (by omega),
      Nat.ofDigits_digits]

/-- The numeral of a positive number has no leading zero (R13). -/
theorem head?_dec_ne_zero {n : Nat} (hn : n ≠ 0) : (dec n).head? ≠ some 0x30#8 := by
  have hne : Nat.digits 10 n ≠ [] := Nat.digits_ne_nil_iff_ne_zero.2 hn
  have hlt : (Nat.digits 10 n).getLast hne < 10 := Nat.digits_lt_base (by omega) (List.getLast_mem hne)
  rw [dec_eq_map_charDigit hn, List.head?_reverse, List.getLast?_map, List.getLast?_eq_some_getLast hne, Option.map_some,
    ne_eq, Option.some_inj, charDigit_eq_zero_iff hlt]
  exact Nat.getLast_digit_ne_zero 10 hn

/-- The numeral of an integer that is not negative is that of the natural number (R13). -/
theorem sdec_of_nonneg {n : Int} (h : 0 ≤ n) : sdec n = dec n.toNat := by
  rw [sdec, if_pos h, (by omega : n.natAbs = n.toNat)]

/-- The numeral of a negative integer is that of its opposite after a minus sign (R13). -/
theorem sdec_of_neg {n : Int} (h : n < 0) : sdec n = charMinus :: dec (-n).toNat := by
  rw [sdec, if_neg (by omega), (by omega : n.natAbs = (-n).toNat)]

/-- Settles O49: `dec` gives the library's digits of the number, which are below 10, make the number and do not end in a
zero. -/
theorem decimalNumeralsAreShortest : Obligations.DecimalNumeralsAreShortest := by
  refine ⟨fun n => ⟨fun c hc => ?_, numeralValue_dec n, ?_⟩, fun n => ⟨sdec_of_nonneg, sdec_of_neg⟩⟩
  · obtain ⟨d, hd, rfl⟩ := mem_dec hc
    rw [toNat_charDigit hd]
    omega
  · split
    next hn => rw [hn, dec_zero]
    next hn => exact head?_dec_ne_zero hn

/-! ### The precision scale -/

/-- `2^W` has `P` decimal digits (R8). -/
theorem two_pow_bits_bounds (W : Width) :
    10 ^ (precision W - 1) ≤ 2 ^ W.bits ∧ 2 ^ W.bits < 10 ^ precision W := by cases W <;> decide

/-- `P` is not zero (R8). -/
theorem precision_pos (W : Width) : 0 < precision W := by cases W <;> decide

/-- Settles O50: `2^W` lies between the two powers of ten that its decimal logarithm names. -/
theorem precisionFollowsTheFormula : Obligations.PrecisionFollowsTheFormula := by
  intro W
  obtain ⟨hle, hlt⟩ := two_pow_bits_bounds W
  have hp : precision W - 1 + 1 = precision W := Nat.sub_add_cancel (precision_pos W)
  exact ⟨by rw [Nat.log_eq_of_pow_le_of_lt_pow hle (by rwa [hp]), hp], hlt.le⟩

end Sys2Proof.Machine

/-! ## Proofs: the statements of the state (10_state.md)

The invariant of the registers and the fault latch (R19, R21), what each kind of command leaves unchanged (R20, R22, R24),
that the compare flag steers no command (R24), and that only a reset clears (R104, R111). -/

namespace Sys2Proof.Machine

variable {W : Width} {i : Instr} {u t : Fxu W}

/-! ### The invariant -/

/-- A unit without a valid register meets the invariant if its fault latch does (R19). -/
theorem Fxu.inv_of_no_valid (hv : ∀ r, (u.reg r).valid = false) (hc : u.status.cause.toNat ≤ 6) : u.Inv :=
  ⟨fun r hr => by simp [hv r] at hr, hc⟩

/-- The unit right after reset meets the invariant (R28). -/
theorem Fxu.afterReset_inv (W : Width) : (Fxu.afterReset W).Inv :=
  Fxu.inv_of_no_valid (fun r => by rw [Fxu.afterReset_reg]) (Nat.zero_le 6)

/-- A reset leaves a unit that meets the invariant (R111). -/
theorem Fxu.rst_inv (u : Fxu W) : u.rst.Inv :=
  Fxu.inv_of_no_valid (fun r => by rw [Fxu.rst_reg]) (Nat.zero_le 6)

/-- Fault entry keeps the invariant: the latched code is one of 1 to 6 (R94, R101). -/
theorem Fxu.Inv.raise (h : u.Inv) (c : Cause) : (u.raise c).Inv :=
  have ⟨htags, _⟩ := h
  ⟨htags, c.code_range.2⟩

/-- Writing a tag below `W` keeps the invariant: six bits hold the tag whole (R18, R19). -/
theorem Fxu.Inv.writeValue (h : u.Inv) (vd : RegNum) (raw : BitVec W.bits) {fb : Nat} (hfb : fb < W.bits) :
    (u.writeValue vd raw fb).Inv := by
  obtain ⟨htags, hcause⟩ := h
  refine ⟨fun r hr => ?_, hcause⟩
  by_cases hrd : r = vd
  · rw [hrd, Fxu.writeValue_reg_self, ValueReg.tag_ofNat (hfb.trans_le (width_le W))]
    exact hfb
  · rw [Fxu.writeValue_reg_ne u hrd] at hr ⊢
    exact htags r hr

/-- Every effect of a command keeps the invariant: a written tag is below `W` because the tags of its sources are. -/
theorem Effect.keeps_inv (he : Effect i u t) (h : u.Inv) : t.Inv := by
  cases he with
  | raised c => exact h.raise c
  | written vd raw fb hv _ hfb =>
    have ⟨htags, _⟩ := h
    exact h.writeValue vd raw (hfb fun r hr => htags r (hv r hr))
  | compared | emitted | answered => exact h

/-- A step from a unit that meets the invariant leaves one that meets it. -/
theorem step_keeps_inv (h : u.Inv) : ∃ t : Fxu W, step ⟨W, u⟩ = .next ⟨W, t⟩ ∧ t.Inv := by
  match hp : u.pending with
  | [] => exact ⟨u, step_nil u hp, h⟩
  | .rst :: rest => exact ⟨_, step_rst u hp, Fxu.rst_inv _⟩
  | .command c d :: rest =>
    have hpresent : (u.present c d rest).Inv := h
    obtain ⟨t, hstep, ⟨_, rfl⟩ | ⟨_, ⟨i, _, heff⟩ | ⟨_, _, rfl⟩⟩⟩ := step_command_cases u hp
    · exact ⟨_, hstep, hpresent⟩
    · exact ⟨t, hstep, heff.keeps_inv hpresent⟩
    · exact ⟨_, hstep, hpresent.raise _⟩

/-- Settles O38: a reset leaves no valid register, a fault entry latches a legal code, and a command writes a tag below `W`
where the tags of its sources are. -/
theorem stepKeepsTheInvariant : Obligations.StepKeepsTheInvariant := by
  rintro ⟨W, u⟩ t hs hstep
  obtain ⟨t', hstep', ht⟩ := step_keeps_inv hs
  rw [hstep'] at hstep
  cases hstep
  exact ht

/-- Settles O37: after reset no register is valid and no fault is latched. -/
theorem invariantHoldsAtReset : Obligations.InvariantHoldsAtReset :=
  ⟨Fxu.afterReset_inv .w32, Fxu.afterReset_inv⟩

/-! ### The state after reset -/

/-- `STATUS` reads 0 where `T` is clear and no fault is latched (R21). -/
theorem StatusReg.read_zero : StatusReg.read ⟨false, 0⟩ = 0 := by decide

/-- Settles O7: the witness is the unit after reset, at each width. -/
theorem resetLeavesTheSpecsState : Obligations.ResetLeavesTheSpecsState := fun W =>
  ⟨Fxu.afterReset W, rfl, fun r => by rw [Fxu.afterReset_reg], StatusReg.read_zero, rfl, (Fxu.not_faulted_iff _).2 rfl⟩

/-! ### What a command leaves unchanged -/

/-- The comparators, the only commands that write `T` (R24). -/
abbrev IsCompare (i : Instr) : Prop := ∃ va vb, i = .cmpeq va vb ∨ i = .cmpne va vb

/-- A comparator has no destination (R43). -/
theorem IsCompare.dest_eq_none (hi : IsCompare i) : i.dest = none := by
  obtain ⟨va, vb, rfl | rfl⟩ := hi <;> rfl

/-- No command writes a register it does not name as its destination (R20). -/
theorem Effect.reg_eq (he : Effect i u t) {r : RegNum} (hr : i.dest ≠ some r) : t.reg r = u.reg r := by
  cases he with
  | written vd raw fb _ hd =>
    have hne : r ≠ vd := fun e => hr (e ▸ hd)
    exact u.writeValue_reg_ne hne raw fb
  | raised | compared | emitted | answered => rfl

/-- No command takes text back (R22). -/
theorem Effect.txs_prefix (he : Effect i u t) : u.txs <+: t.txs := by
  cases he with
  | emitted str => exact List.prefix_append u.txs str
  | raised | written | compared | answered => exact List.prefix_rfl

/-- No command makes a valid register invalid (R18). -/
theorem Effect.valid_of_valid (he : Effect i u t) (r : RegNum) (hr : (u.reg r).valid = true) :
    (t.reg r).valid = true := by
  by_cases hd : i.dest = some r
  · cases he with
    | written vd raw fb _ hvd =>
      obtain rfl : vd = r := Option.some_inj.1 (hvd.symm.trans hd)
      exact congrArg ValueReg.valid (u.writeValue_reg_self vd raw fb)
    | raised | compared | emitted | answered => exact hr
  · rw [he.reg_eq hd]
    exact hr

/-- What a faulted unit leaves of any command is its refusal (R102). -/
theorem eq_refuse_of_exec (h : exec i ⟨W, u⟩ = .next ⟨W, t⟩) (hc : u.status.cause ≠ 0) : t = u.refuse := by
  rcases exec_cases h with ⟨_, ht⟩ | ⟨h0, _⟩
  · exact ht
  · exact absurd h0 hc

/-- No command changes the input ports or what the host will do next (R30, R119). -/
theorem exec_ports_eq (h : exec i ⟨W, u⟩ = .next ⟨W, t⟩) :
    t.cmd = u.cmd ∧ t.wdata = u.wdata ∧ t.pending = u.pending := by
  rcases exec_cases h with ⟨_, rfl⟩ | ⟨_, he⟩
  · exact ⟨rfl, rfl, rfl⟩
  · cases he <;> exact ⟨rfl, rfl, rfl⟩

/-- No command, refused or not, writes a register it does not name as its destination (R20). -/
theorem exec_reg_eq (h : exec i ⟨W, u⟩ = .next ⟨W, t⟩) {r : RegNum} (hr : i.dest ≠ some r) : t.reg r = u.reg r := by
  rcases exec_cases h with ⟨_, rfl⟩ | ⟨_, he⟩
  · rfl
  · exact he.reg_eq hr

/-- A command without a destination leaves all registers alone (R20). -/
theorem exec_regs_eq (h : exec i ⟨W, u⟩ = .next ⟨W, t⟩) (hd : i.dest = none) : t.regs = u.regs :=
  Vector.ext fun j hj => exec_reg_eq h (r := ⟨j, hj⟩) (by simp [hd])

/-- Only a comparator leaves another `T` (R24). -/
theorem exec_flag_eq (h : exec i ⟨W, u⟩ = .next ⟨W, t⟩) (hi : ¬IsCompare i) : t.status.t = u.status.t := by
  rcases exec_cases h with ⟨_, rfl⟩ | ⟨_, he⟩
  · rfl
  · cases he with
    | compared _ _ _ hc => exact absurd hc hi
    | raised | written | emitted | answered => rfl

/-- Only `TOTEXT` leaves another text (R22). -/
theorem exec_txs_eq (h : exec i ⟨W, u⟩ = .next ⟨W, t⟩) (hi : ∀ va, i ≠ .totext va) : t.txs = u.txs := by
  rcases exec_cases h with ⟨_, rfl⟩ | ⟨_, he⟩
  · rfl
  · cases he with
    | emitted _ _ _ htext =>
      obtain ⟨va, rfl⟩ := htext
      exact absurd rfl (hi va)
    | raised | written | compared | answered => rfl

/-- No command, refused or not, takes text back (R22). -/
theorem exec_txs_prefix (h : exec i ⟨W, u⟩ = .next ⟨W, t⟩) : u.txs <+: t.txs := by
  rcases exec_cases h with ⟨_, rfl⟩ | ⟨_, he⟩
  · exact List.prefix_rfl
  · exact he.txs_prefix

/-- A command that changes `CAUSE` is a fault entry of a unit that was not faulted (R101, R102). -/
theorem exec_cause_cases (h : exec i ⟨W, u⟩ = .next ⟨W, t⟩) :
    t.status.cause = u.status.cause ∨ (u.status.cause = 0 ∧ ∃ c, t = u.raise c) := by
  rcases exec_cases h with ⟨_, rfl⟩ | ⟨hc, he⟩
  · exact .inl rfl
  · cases he with
    | raised c => exact .inr ⟨hc, c, rfl⟩
    | written | compared | emitted | answered => exact .inl rfl

/-- Settles O29: a command with a destination is neither a comparator nor `TOTEXT`, and a fault entry keeps all registers. -/
theorem writersLeaveTheRest : Obligations.WritersLeaveTheRest := by
  intro i vd W u t hd h
  have hflag : ¬IsCompare i := fun hc => by simp [hc.dest_eq_none] at hd
  have htext : ∀ va, i ≠ .totext va := by rintro va rfl; cases hd
  obtain ⟨hcmd, hwdata, hpending⟩ := exec_ports_eq h
  refine ⟨fun r hr => exec_reg_eq h (by simp [hd, hr.symm]), exec_flag_eq h hflag, exec_txs_eq h htext, hcmd, hwdata,
    hpending, (exec_cause_cases h).imp_right ?_⟩
  rintro ⟨hc, c, rfl⟩
  exact ⟨hc, u.raise_regs c⟩

/-- Settles O31: a comparator has no destination and is not `TOTEXT`; neither a fault entry nor a refusal writes `T`. -/
theorem comparesChangeOnlyT : Obligations.ComparesChangeOnlyT := by
  intro i va vb W u t hi h
  have hcompare : IsCompare i := ⟨va, vb, hi⟩
  have htext : ∀ va, i ≠ .totext va := by rintro va rfl; simp at hi
  obtain ⟨hcmd, hwdata, hpending⟩ := exec_ports_eq h
  refine ⟨exec_regs_eq h hcompare.dest_eq_none, exec_txs_eq h htext, hcmd, hwdata, hpending,
    (exec_cause_cases h).imp_right ?_, fun hc => ?_⟩
  · rintro ⟨hc, c, rfl⟩
    exact ⟨hc, rfl⟩
  · rw [eq_refuse_of_exec h hc, Fxu.refuse_status]

/-- Settles O32: `TOTEXT` has no destination and is no comparator, and a fault entry emits nothing. -/
theorem totextChangesOnlyTheText : Obligations.TotextChangesOnlyTheText := by
  intro va W u t h
  obtain ⟨hcmd, hwdata, hpending⟩ := exec_ports_eq h
  refine ⟨exec_regs_eq h rfl, exec_flag_eq h (by simp [IsCompare]), hcmd, hwdata, hpending, ?_⟩
  obtain hkept | ⟨hc, c, rfl⟩ := exec_cause_cases h
  · obtain ⟨str, hstr⟩ := exec_txs_prefix h
    exact .inl ⟨hkept, str, hstr.symm⟩
  · exact .inr ⟨hc, u.raise_txs c⟩

/-! ### Only a reset clears -/

/-- Settles O36: a command refused, an illegal word and an idle step leave registers, fault latch and text as they are; an
effect, which only a unit that is not faulted has, keeps valid registers valid and the text as a prefix. -/
theorem onlyResetClears : Obligations.OnlyResetClears := by
  intro W u t hnrst h
  match hp : u.pending with
  | [] =>
    rw [step_nil u hp] at h
    cases h
    exact ⟨fun _ hr => hr, fun _ => rfl, List.prefix_rfl⟩
  | .rst :: rest => simp [hp] at hnrst
  | .command c d :: rest =>
    obtain ⟨t', hstep, hcases⟩ := step_command_cases u hp
    rw [hstep] at h
    cases h
    obtain ⟨_, rfl⟩ | ⟨hc, ⟨i, _, heff⟩ | ⟨_, _, rfl⟩⟩ := hcases
    · exact ⟨fun _ hr => hr, fun _ => rfl, List.prefix_rfl⟩
    · exact ⟨heff.valid_of_valid, fun hne => absurd hc hne, heff.txs_prefix⟩
    · exact ⟨fun _ hr => hr, fun hne => absurd hc hne, List.prefix_rfl⟩

/-! ### The compare flag steers no command -/

/-- What a command leaves from two units that differ in `T` alone, `u` and `u.setT b`: two units that differ in `T` alone,
each keeping its own; or, by a comparator only, the same unit twice (R24). -/
def FlagBlind (i : Instr) (u : Fxu W) (b : Bool) (t t' : Fxu W) : Prop :=
  (t' = t.setT b ∧ t.status.t = u.status.t) ∨ (t' = t ∧ IsCompare i)

variable {b : Bool}

/-- A check that does not look at `T` decides alike in both units. -/
theorem FlagBlind.ite {p : Prop} [Decidable p] {t₁ t₁' t₂ t₂' : Fxu W} (h₁ : FlagBlind i u b t₁ t₁')
    (h₂ : FlagBlind i u b t₂ t₂') : FlagBlind i u b (if p then t₁ else t₂) (if p then t₁' else t₂') := by
  split
  · exact h₁
  · exact h₂

/-- Fault entry does not look at `T` (R101). -/
theorem FlagBlind.raise (c : Cause) : FlagBlind i u b (u.raise c) ((u.setT b).raise c) := .inl ⟨rfl, rfl⟩

/-- Writing a register and answering does not look at `T` (R14, R16). -/
theorem FlagBlind.writeValue (vd : RegNum) (raw : BitVec W.bits) (fb : Nat) (d : BitVec W.bits) :
    FlagBlind i u b ((u.writeValue vd raw fb).respond d) (((u.setT b).writeValue vd raw fb).respond d) := .inl ⟨rfl, rfl⟩

/-- Emitting text and answering does not look at `T` (R16). -/
theorem FlagBlind.emit (str : List Byte) (d : BitVec W.bits) :
    FlagBlind i u b ((u.emit str).respond d) (((u.setT b).emit str).respond d) := .inl ⟨rfl, rfl⟩

/-- Answering a value that was read without `T` does not look at `T` (R16). -/
theorem FlagBlind.respond (d : BitVec W.bits) : FlagBlind i u b (u.respond d) ((u.setT b).respond d) := .inl ⟨rfl, rfl⟩

/-- Reading a source does not look at `T` (R14). -/
theorem FlagBlind.source (va : RegNum) {k k' : BitVec W.bits → Nat → Fxu W}
    (hk : ∀ raw fb, FlagBlind i u b (k raw fb) (k' raw fb)) :
    FlagBlind i u b (u.withSource va k) ((u.setT b).withSource va k') :=
  FlagBlind.ite (hk _ _) (FlagBlind.raise _)

/-- `ADD` and `SUB` do not look at `T` (R66). -/
theorem FlagBlind.aligned (vd va vb : RegNum) (f : Int → Int → Int) :
    FlagBlind i u b (u.aligned vd va vb f) ((u.setT b).aligned vd va vb f) :=
  .source va fun _ _ => .source vb fun _ _ => .writeValue vd _ _ _

/-- A comparator overwrites `T` without looking at it (R76). -/
theorem FlagBlind.compare (va vb : RegNum) (test : BitVec W.bits → BitVec W.bits → Bool) (hi : IsCompare i) :
    FlagBlind i u b (u.compare va vb test) ((u.setT b).compare va vb test) :=
  .source va fun _ _ => .source vb fun _ _ => .ite (.raise _) (.inr ⟨rfl, hi⟩)

/-- A command on two units that differ in `T` alone: a faulted unit refuses it in both (R102), one that is not does what the
command does in both (R53). -/
theorem State.command_flagBlind (k : (W : Width) → Fxu W → Fxu W) (hk : FlagBlind i u b (k W u) (k W (u.setT b))) :
    ∃ t t' : Fxu W, State.command ⟨W, u⟩ k = .next ⟨W, t⟩ ∧ State.command ⟨W, u.setT b⟩ k = .next ⟨W, t'⟩ ∧
      FlagBlind i u b t t' := by
  by_cases hc : u.status.cause = 0
  · exact ⟨_, _, State.command_running u k hc, State.command_running (u.setT b) k hc, hk⟩
  · exact ⟨_, _, State.command_faulted u k hc, State.command_faulted (u.setT b) k hc, .inl ⟨rfl, rfl⟩⟩

/-- Every command but `RDSTAT` is blind to `T`: its body is made of operations that are (R24). -/
theorem exec_flagBlind (u : Fxu W) (b : Bool) (hi : i ≠ .rdstat) :
    ∃ t t' : Fxu W, exec i ⟨W, u⟩ = .next ⟨W, t⟩ ∧ exec i ⟨W, u.setT b⟩ = .next ⟨W, t'⟩ ∧ FlagBlind i u b t t' := by
  cases i <;> dsimp only [exec, execLoad, execRescale, execAdd, execSub, execMul, execDiv, execCmpeq, execCmpne, execRdraw,
    execRdfb, execIpart, execFpart, execTotext, execRdstat] <;> refine State.command_flagBlind _ ?_
  case load vd imm8 => exact .ite (.raise _) (.writeValue vd _ _ _)
  case rescale vd va imm8 => exact .source va fun _ _ => .ite (.raise _) (.ite (.raise _) (.writeValue vd _ _ _))
  case add vd va vb => exact .aligned vd va vb _
  case sub vd va vb => exact .aligned vd va vb _
  case mul vd va vb => exact .source va fun _ _ => .source vb fun _ _ => .ite (.raise _) (.writeValue vd _ _ _)
  case div vd va vb =>
    exact .source va fun _ _ => .source vb fun _ _ => .ite (.raise _) (.ite (.raise _) (.writeValue vd _ _ _))
  case cmpeq va vb => exact .compare va vb _ ⟨va, vb, .inl rfl⟩
  case cmpne va vb => exact .compare va vb _ ⟨va, vb, .inr rfl⟩
  case rdraw va => exact .source va fun _ _ => .respond _
  case rdfb va => exact .source va fun _ _ => .respond _
  case ipart va => exact .source va fun _ _ => .respond _
  case fpart va => exact .source va fun _ _ => .respond _
  case totext va => exact .source va fun _ _ => .emit _ _
  case rdstat => exact absurd rfl hi

/-- Settles O35: every command but `RDSTAT` is blind to `T`. -/
theorem flagSteersNoCommand : Obligations.FlagSteersNoCommand := by
  intro i W u b hi
  obtain ⟨t, t', ht, ht', ⟨rfl, hkept⟩ | ⟨rfl, hcompare⟩⟩ := exec_flagBlind u b hi
  · exact ⟨t, t.setT b, ht, ht', rfl, .inl ⟨hkept, rfl⟩⟩
  · exact ⟨t', t', ht, ht', rfl, .inr ⟨rfl, hcompare⟩⟩

end Sys2Proof.Machine

/-! ## Proofs: the statements of the memory (20_memory.md)

The unit has no memory (R31), so what a command leaves behind is its next state and one response: what the readers change
(R34), the one response to each command (R37, R54), and the run of such commands up to its end (R121). -/

namespace Sys2Proof.Machine

variable {W : Width} {i : Instr} {u t : Fxu W}

/-! ### The readers -/

/-- The commands that only answer: `RDRAW`, `RDFB`, `IPART`, `FPART` and `RDSTAT` (R34). -/
abbrev IsReader (i : Instr) : Prop :=
  (∃ va, i = .rdraw va ∨ i = .rdfb va ∨ i = .ipart va ∨ i = .fpart va) ∨ i = .rdstat

/-- What a reader leaves of a unit that is not faulted: its answer alone, or the fault entry for a source without a value. -/
def Reads (i : Instr) (u t : Fxu W) : Prop :=
  (∃ d, t = u.respond d) ∨ (t = u.raise .invalidOperand ∧ ∃ r ∈ i.sources, (u.reg r).valid = false)

/-- Reading one source and answering (R14, R96). -/
theorem Reads.source (u : Fxu W) {va : RegNum} (hs : i.sources = [va]) (f : BitVec W.bits → Nat → BitVec W.bits) :
    Reads i u (u.withSource va fun raw fb => u.respond (f raw fb)) := by
  rcases u.withSource_cases va fun raw fb => u.respond (f raw fb) with ⟨hv, h⟩ | ⟨_, h⟩ <;> rw [h]
  · exact .inr ⟨rfl, va, by simp [hs], hv⟩
  · exact .inl ⟨_, rfl⟩

/-- A command on a unit that is not faulted leaves what it reads there (R53). -/
theorem State.command_reads (k : (W : Width) → Fxu W → Fxu W) (hc : u.status.cause = 0) (hk : Reads i u (k W u)) :
    ∃ t : Fxu W, State.command ⟨W, u⟩ k = .next ⟨W, t⟩ ∧ Reads i u t :=
  ⟨_, State.command_running u k hc, hk⟩

/-- Every reader reads its one source and answers; `RDSTAT` has none and always answers (R56 to R61, R79). -/
theorem exec_reads (u : Fxu W) (hi : IsReader i) (hc : u.status.cause = 0) :
    ∃ t : Fxu W, exec i ⟨W, u⟩ = .next ⟨W, t⟩ ∧ Reads i u t := by
  obtain ⟨va, rfl | rfl | rfl | rfl⟩ | rfl := hi <;>
    dsimp only [exec, execRdraw, execRdfb, execIpart, execFpart, execRdstat]
  · exact State.command_reads _ hc (.source u rfl fun raw _ => raw)
  · exact State.command_reads _ hc (.source u rfl fun _ fb => wrapW W.bits fb)
  · exact State.command_reads _ hc (.source u rfl fun raw fb => wrapW W.bits (mag raw / 2 ^ fb))
  · exact State.command_reads _ hc (.source u rfl fun raw fb => wrapW W.bits (mag raw % 2 ^ fb))
  · exact State.command_reads _ hc (.inl ⟨_, rfl⟩)

/-- Settles O30: a reader is refused, answers, or raises `InvalidOperand`, and of these only the last writes `CAUSE`. -/
theorem readersLeaveEverything : Obligations.ReadersLeaveEverything := by
  intro i W u t hi h
  by_cases hc : u.status.cause = 0
  · obtain ⟨t', hexec, hreads⟩ := exec_reads u hi hc
    rw [hexec] at h
    cases h
    obtain ⟨d, rfl⟩ | ⟨rfl, hinvalid⟩ := hreads
    · exact ⟨rfl, rfl, rfl, rfl, rfl, rfl, .inl rfl⟩
    · exact ⟨rfl, rfl, rfl, rfl, rfl, rfl, .inr ⟨hc, rfl, hinvalid⟩⟩
  · rw [eq_refuse_of_exec h hc]
    exact ⟨rfl, rfl, rfl, rfl, rfl, rfl, .inl rfl⟩

/-! ### One response to each command -/

/-- From `u` to `t` the unit returned exactly one response, the code in `CAUSE` afterwards, with `rdata` 0 when that is not
0 (R37, R54). -/
def Fxu.Answers (u t : Fxu W) : Prop :=
  ∃ a : Response W, t.responses = u.responses ++ [a] ∧ a.status = t.status.cause ∧ (a.status ≠ 0 → a.rdata = 0)

/-- Fault entry answers with the latched code (R101). -/
theorem Fxu.Answers.raise (u : Fxu W) (c : Cause) : u.Answers (u.raise c) := ⟨_, rfl, rfl, fun _ => rfl⟩

/-- A refusal answers with the code already latched (R102). -/
theorem Fxu.Answers.refuse (u : Fxu W) : u.Answers u.refuse := ⟨_, rfl, rfl, fun _ => rfl⟩

/-- Every effect of a command is one response; it is a completion unless it is a fault entry (R54, R101). -/
theorem Effect.answers (he : Effect i u t) (hc : u.status.cause = 0) : u.Answers t := by
  cases he with
  | raised c => exact .raise u c
  | written | compared | emitted | answered => exact ⟨_, rfl, hc.symm, fun hne => absurd rfl hne⟩

/-- A step with a command presented takes that command and answers it once, whatever the word (R37, R54). -/
theorem step_command_answers {c : CommandWord} {d : BitVec W.bits} {rest : List (HostEvent W)}
    (hp : u.pending = .command c d :: rest) :
    ∃ t : Fxu W, step ⟨W, u⟩ = .next ⟨W, t⟩ ∧ t.pending = rest ∧ u.Answers t := by
  obtain ⟨t, hstep, ⟨_, rfl⟩ | ⟨hc, ⟨i, _, heff⟩ | ⟨_, _, rfl⟩⟩⟩ := step_command_cases u hp
  · exact ⟨_, hstep, rfl, .refuse (u.present c d rest)⟩
  · exact ⟨t, hstep, heff.pending_eq, heff.answers hc⟩
  · exact ⟨_, hstep, rfl, .raise (u.present c d rest) _⟩

/-- Settles O33: refused, illegal or executed, a command takes its transaction and is answered once. -/
theorem everyCommandGetsOneResponse : Obligations.EveryCommandGetsOneResponse := by
  intro W u c d rest hp
  obtain ⟨t, hstep, hrest, a, hresp, hstatus, hdata⟩ := step_command_answers hp
  exact ⟨t, a, hstep, hrest, hresp, hstatus, hdata⟩

/-! ### The end of a run -/

/-- The unit stands somewhere in a run of `n` commands without a reset: the commands answered and those to come are `n`, the
only fault code answered is the one in `CAUSE`, and a code in `CAUSE` has been answered (R37, R102, R121). -/
structure Fxu.InRun (n : Nat) (u : Fxu W) : Prop where
  noReset : ∀ e ∈ u.pending, e ≠ .rst
  count : u.responses.length + u.pending.length = n
  codes : ∀ a ∈ u.responses, a.status ≠ 0 → a.status = u.status.cause
  answered : u.status.cause ≠ 0 → ∃ a ∈ u.responses, a.status ≠ 0

variable {n : Nat}

/-- In a run, no fault is latched exactly when every response so far is a completion (R104, R121). -/
theorem Fxu.InRun.cause_eq_zero_iff (h : u.InRun n) : u.status.cause = 0 ↔ ∀ a ∈ u.responses, a.status = 0 := by
  refine ⟨fun hc a ha => ?_, fun hall => ?_⟩
  · by_contra hne
    exact hne ((h.codes a ha hne).trans hc)
  · by_contra hne
    obtain ⟨a, ha, hstatus⟩ := h.answered hne
    exact hstatus (hall a ha)

/-- A launched run has answered nothing and has all its commands to come (R121, R122). -/
theorem State.launch_inRun (W : Width) (commands : List (CommandWord × BitVec W.bits)) :
    (State.launch W commands).fxu.InRun (W := W) commands.length where
  noReset := fun e he => by
    obtain ⟨c, _, rfl⟩ := List.mem_map.1 he
    exact nofun
  count := by simp [State.launch, Fxu.afterReset]
  codes := by simp [State.launch, Fxu.afterReset]
  answered := fun hne => absurd rfl hne

/-- One more response agrees with the run: a latched code stays latched (R102), and the response is the code in `CAUSE`. -/
theorem Fxu.InRun.answer {e : HostEvent W} (h : u.InRun n) (hp : u.pending = e :: t.pending) (ht : u.Answers t)
    (hkept : u.status.cause ≠ 0 → t.status.cause = u.status.cause) : t.InRun n := by
  obtain ⟨hrst, hcount, hcodes, _⟩ := h
  obtain ⟨a, hresp, hstatus, _⟩ := ht
  refine { noReset := fun e' he' => hrst e' (by simp [hp, he']), count := ?_, codes := fun b hb hne => ?_,
           answered := fun hne => ⟨a, by simp [hresp], hstatus ▸ hne⟩ }
  · simp only [← hcount, hp, hresp, List.length_append, List.length_cons, List.length_nil]
    omega
  · rw [hresp, List.mem_append, List.mem_singleton] at hb
    obtain hb | rfl := hb
    · have hlatched := hcodes b hb hne
      rw [hkept (hlatched ▸ hne), hlatched]
    · exact hstatus

/-- A step keeps a run a run: with nothing to come it changes nothing, else it answers the next command. -/
theorem Fxu.InRun.step_keeps (h : u.InRun n) : ∃ t : Fxu W, step ⟨W, u⟩ = .next ⟨W, t⟩ ∧ t.InRun n := by
  match hp : u.pending with
  | [] => exact ⟨u, step_nil u hp, h⟩
  | .rst :: rest => exact absurd rfl (h.noReset .rst (by simp [hp]))
  | .command c d :: rest =>
    obtain ⟨t, hstep, rfl, hanswers⟩ := step_command_answers hp
    obtain ⟨_, hcause, _⟩ := onlyResetClears W u t (by simp [hp]) hstep
    exact ⟨t, hstep, h.answer hp hanswers hcause⟩

/-- What every step keeps, every run keeps. -/
theorem run_keeps {P : Fxu W → Prop} (hP : ∀ u, P u → ∃ t : Fxu W, step ⟨W, u⟩ = .next ⟨W, t⟩ ∧ P t) (k : Nat) :
    ∀ u, P u → ∃ t : Fxu W, Host.Core.run Sys2Proof.core k (⟨W, u⟩ : State) = .next (⟨W, t⟩ : State) ∧ P t := by
  induction k with
  | zero => exact fun u hu => ⟨u, rfl, hu⟩
  | succ k ih =>
    intro u hu
    obtain ⟨v, hstep, hv⟩ := hP u hu
    obtain ⟨t, hrun, ht⟩ := ih v hv
    exact ⟨t, (run_succ k hstep).trans hrun, ht⟩

/-- A run of `m + k` steps goes on from where its first `m` steps lead. -/
theorem run_add (m k : Nat) : ∀ {u : Fxu W},
    Host.Core.run Sys2Proof.core m (⟨W, u⟩ : State) = .next (⟨W, t⟩ : State) →
    Host.Core.run Sys2Proof.core (m + k) (⟨W, u⟩ : State) = Host.Core.run Sys2Proof.core k (⟨W, t⟩ : State) := by
  induction m with
  | zero =>
    intro u h
    cases h
    rw [Nat.zero_add]
  | succ m ih =>
    intro u h
    obtain ⟨v, hstep, _⟩ := step_takes_one_event u
    rw [run_succ m hstep] at h
    rw [Nat.succ_add, run_succ (m + k) hstep, ih h]

/-- After `k` steps a launched run has taken its first `k` commands and stands in the run (R37, R121). -/
theorem run_launch (W : Width) (commands : List (CommandWord × BitVec W.bits)) (k : Nat) :
    ∃ t : Fxu W, Host.Core.run Sys2Proof.core k (State.launch W commands) = .next (⟨W, t⟩ : State) ∧
      t.pending.length = commands.length - k ∧ t.InRun commands.length := by
  obtain ⟨t, hrun, ht⟩ := run_keeps (fun _ => Fxu.InRun.step_keeps) k _ (State.launch_inRun W commands)
  obtain ⟨t', hrun', hpending⟩ := runsNeverStop k W (State.launch W commands).fxu
  cases hrun.symm.trans hrun'
  exact ⟨t, hrun, by simp [hpending, State.launch], ht⟩

/-- Settles O55: each step takes one command and answers it, so the run ends after the last one and rests there; the fault
latch and the responses agree all along. -/
theorem runEndsAfterTheLastResponse : Obligations.RunEndsAfterTheLastResponse := by
  intro W commands
  refine ⟨fun k hk => ?_, ?_⟩
  · obtain ⟨t, hrun, hlen, _⟩ := run_launch W commands k
    refine ⟨t, hrun, fun hended => ?_⟩
    have hnil : t.pending = [] := hended
    rw [hnil, List.length_nil] at hlen
    omega
  · obtain ⟨t, hrun, hlen, hinRun⟩ := run_launch W commands commands.length
    have hended : t.pending = [] := List.eq_nil_of_length_eq_zero (by omega)
    refine ⟨t, fun k hk => ?_, hended, ?_, ?_, ?_, hinRun.codes⟩
    · obtain ⟨j, rfl⟩ := Nat.exists_eq_add_of_le hk
      exact (run_add _ j hrun).trans (run_fixed j (step_nil t hended))
    · simpa [hended] using hinRun.count
    · rw [State.endedWell_iff, and_iff_right hended, hinRun.cause_eq_zero_iff]
    · rw [State.endedFailed_iff, and_iff_right hended, Ne, hinRun.cause_eq_zero_iff]
      simp only [not_forall, exists_prop, ne_eq]

end Sys2Proof.Machine

/-! ## Proofs: the statements of the encoding (30_encoding.md)

The rows of the opcode map by operation code and format (R43, R46), what the decoder answers for fields that fit a row, and
from it the round trips, the match and mask words and the legal words (R47, R48, R51). After them what a step does with a
presented word (R53, R95), and that the data operand is read by `LOAD` only (R50). -/

namespace Sys2Proof

variable {f : Fields} {i : Instr}

/-! ### Decoding the encoding -/

/-- The fields written for a command decode to that command (R51). -/
theorem decodeFields_fieldsOfInstr (i : Instr) : decodeFields (fieldsOfInstr i) = .ok i := by
  cases i <;> rfl

/-- Settles O2: cutting the joined word gives the fields back, and they decode to the command. -/
theorem decodeOfEncodeIsTheInstruction : Obligations.DecodeOfEncodeIsTheInstruction := by
  intro i
  rw [decode, encode, fieldsOfWord_wordOfFields, decodeFields_fieldsOfInstr]

/-- Settles O1, by running the decoder on the fourteen words. -/
theorem specWordsDecode : Obligations.SpecWordsDecode := by
  unfold Obligations.SpecWordsDecode
  decide

/-! ### The rows of the opcode map -/

/-- One row of the opcode map, with the operation code and the format in place of the match and mask words (R43, R46). -/
structure OpcodeRow where
  mnemonic : String
  op : BitVec 8
  format : Format

/-- The rows of the opcode map (R46). -/
def opcodeRows : List OpcodeRow :=
  [⟨"LOAD", 0x01#8, .L⟩, ⟨"RESCALE", 0x02#8, .S⟩, ⟨"ADD", 0x10#8, .R⟩, ⟨"SUB", 0x11#8, .R⟩, ⟨"MUL", 0x12#8, .R⟩,
   ⟨"DIV", 0x13#8, .R⟩, ⟨"CMPEQ", 0x20#8, .C⟩, ⟨"CMPNE", 0x21#8, .C⟩, ⟨"RDRAW", 0x30#8, .U⟩, ⟨"RDFB", 0x31#8, .U⟩,
   ⟨"IPART", 0x32#8, .U⟩, ⟨"FPART", 0x33#8, .U⟩, ⟨"TOTEXT", 0x40#8, .U⟩, ⟨"RDSTAT", 0x50#8, .Z⟩]

variable {row row' : OpcodeRow}

/-- The operation codes and formats of the rows are those of the format table (R46). -/
theorem opFormats_eq_map : opFormats = opcodeRows.map fun row => (row.op, row.format) := rfl

/-- No two rows have one mnemonic (R46). -/
theorem eq_of_mnemonic_eq (hrow : row ∈ opcodeRows) (hrow' : row' ∈ opcodeRows) (h : row.mnemonic = row'.mnemonic) :
    row = row' :=
  List.inj_on_of_nodup_map (by decide : (opcodeRows.map OpcodeRow.mnemonic).Nodup) hrow hrow' h

/-- The format of a row's operation code is the row's format: no two rows have one operation code (R46). -/
theorem formatOf_op (hrow : row ∈ opcodeRows) : formatOf row.op = some row.format := by
  fin_cases hrow <;> rfl

/-- An operation code that has a format is a row's (R46). -/
theorem exists_row_of_formatOf {op : BitVec 8} {fmt : Format} (h : formatOf op = some fmt) :
    ∃ row ∈ opcodeRows, row.op = op ∧ row.format = fmt := by
  obtain ⟨l₁, l₂, hsplit, _⟩ := List.lookup_eq_some_iff.1 h
  have hmem : (op, fmt) ∈ opFormats := by simp [hsplit]
  rw [opFormats_eq_map, List.mem_map] at hmem
  obtain ⟨row, hrow, heq⟩ := hmem
  exact ⟨row, hrow, congrArg Prod.fst heq, congrArg Prod.snd heq⟩

/-- Fields that pass the checks of R48 as a word of this row. -/
def Fields.Fits (f : Fields) (row : OpcodeRow) : Prop :=
  f.op = row.op ∧ f.rsv = 0#4 ∧ f.unusedZero row.format = true

/-- Fields with a row's operation code reach the checks (b) and (c) of that row's format, which guard a command of the row's
mnemonic; if the checks pass, the fields are those written for that command (R47, R48, R51). -/
theorem decodeFields_of_op (hrow : row ∈ opcodeRows) (hop : f.op = row.op) :
    ∃ i, decodeFields f = accept f (f.unusedZero row.format) i ∧ i.mnemonic = row.mnemonic ∧
      (f.Fits row → fieldsOfInstr i = f) := by
  obtain ⟨op, vd, va, vb, rsv, imm8⟩ := f
  fin_cases hrow
  all_goals
    obtain rfl := hop
    refine ⟨_, rfl, rfl, ?_⟩
    rintro ⟨-, hrsv, hunused⟩
    simp only [Fields.unusedZero, Bool.and_eq_true, beq_iff_eq] at hrsv hunused
    simp [fieldsOfInstr, hrsv, hunused]

/-- Fields that fit a row decode to a command of the row's mnemonic (R47). -/
theorem Fields.Fits.decodes (h : f.Fits row) (hrow : row ∈ opcodeRows) :
    ∃ i, decodeFields f = .ok i ∧ i.mnemonic = row.mnemonic := by
  obtain ⟨hop, hrsv, hunused⟩ := h
  obtain ⟨i, haccept, hname, _⟩ := decodeFields_of_op hrow hop
  exact ⟨i, haccept.trans (accept_ok_iff.2 ⟨hrsv, hunused, rfl⟩), hname⟩

/-- Fields that decode fit a row, whose mnemonic is the command's, and are those written for the command (R47, R48). -/
theorem exists_row_of_decodeFields (h : decodeFields f = .ok i) :
    ∃ row ∈ opcodeRows, f.Fits row ∧ i.mnemonic = row.mnemonic ∧ fieldsOfInstr i = f := by
  have hop := decodeFields_ok_op h
  rw [opFormats_eq_map, List.map_map, List.mem_map] at hop
  obtain ⟨row, hrow, hrowop⟩ := hop
  obtain ⟨j, haccept, hname, hfields⟩ := decodeFields_of_op hrow hrowop.symm
  obtain ⟨hrsv, hunused, rfl⟩ := accept_ok_iff.1 (haccept.symm.trans h)
  have hfits : f.Fits row := ⟨hrowop.symm, hrsv, hunused⟩
  exact ⟨row, hrow, hfits, hname, hfields hfits⟩

/-- Fields fit a row exactly when they decode to a command of its mnemonic (R46, R47). -/
theorem fits_iff_decodeFields (hrow : row ∈ opcodeRows) :
    f.Fits row ↔ ∃ i, decodeFields f = .ok i ∧ i.mnemonic = row.mnemonic := by
  refine ⟨fun h => h.decodes hrow, ?_⟩
  rintro ⟨i, hdecode, hname⟩
  obtain ⟨row', hrow', hfits, hname', _⟩ := exists_row_of_decodeFields hdecode
  rwa [eq_of_mnemonic_eq hrow hrow' (hname.symm.trans hname')]

/-- Settles O3: the fields of a word that decodes are those written for the command, and joining them gives the word. -/
theorem encodeOfDecodeIsTheWord : Obligations.EncodeOfDecodeIsTheWord := by
  intro c i h
  obtain ⟨_, _, _, _, hfields⟩ := exists_row_of_decodeFields h
  rw [encode, hfields, wordOfFields_fieldsOfWord]

/-! ### The legal words -/

/-- Fields are well formed exactly when they fit a row (R48). -/
theorem wellFormed_iff_exists_fits : f.wellFormed = true ↔ ∃ row ∈ opcodeRows, f.Fits row := by
  constructor
  · intro h
    rw [Fields.wellFormed] at h
    split at h
    next => cases h
    next fmt hfmt =>
      obtain ⟨hrsv, hunused⟩ := Bool.and_eq_true_iff.1 h
      obtain ⟨row, hrow, hop, rfl⟩ := exists_row_of_formatOf hfmt
      exact ⟨row, hrow, hop.symm, beq_iff_eq.1 hrsv, hunused⟩
  · rintro ⟨row, hrow, hop, hrsv, hunused⟩
    simp [Fields.wellFormed, hop, formatOf_op hrow, hrsv, hunused]

/-- Settles O5: a word decodes exactly when its fields fit a row, and that is what the three checks say. -/
theorem legalWordsAreTheWellFormed : Obligations.LegalWordsAreTheWellFormed := by
  intro c
  rw [wellFormed_iff_exists_fits]
  constructor
  · rintro ⟨i, h⟩
    obtain ⟨row, hrow, hfits, _⟩ := exists_row_of_decodeFields h
    exact ⟨row, hrow, hfits⟩
  · rintro ⟨row, hrow, hfits⟩
    obtain ⟨i, h, _⟩ := hfits.decodes hrow
    exact ⟨i, h⟩

/-! ### The match and mask words -/

/-- The fields of a row's match word: the operation code, the rest zero (R46). -/
def OpcodeRow.matchFields (row : OpcodeRow) : Fields := ⟨row.op, 0, 0, 0, 0, 0⟩

/-- The fields of a format's mask word: ones in the operation code, the reserved field and every field the format does not
use (R43, R46). -/
def Format.maskFields : Format → Fields
  | .L => ⟨0xFF, 0, 0xF, 0xF, 0xF, 0⟩
  | .S => ⟨0xFF, 0, 0, 0xF, 0xF, 0⟩
  | .R => ⟨0xFF, 0, 0, 0, 0xF, 0xFF⟩
  | .C => ⟨0xFF, 0xF, 0, 0, 0xF, 0xFF⟩
  | .U => ⟨0xFF, 0xF, 0, 0xF, 0xF, 0xFF⟩
  | .Z => ⟨0xFF, 0xF, 0xF, 0xF, 0xF, 0xFF⟩

/-- The opcode map as the spec prints it is that of the rows (R46). -/
theorem opcodeMap_eq_map : opcodeMap = opcodeRows.map fun row =>
    (row.mnemonic, wordOfFields row.matchFields, wordOfFields row.format.maskFields) := by decide

/-- Masking a word gives a row's match word exactly when the word's fields fit the row (R46, R48). -/
theorem and_mask_eq_match_iff (c : CommandWord) (row : OpcodeRow) :
    c &&& wordOfFields row.format.maskFields = wordOfFields row.matchFields ↔ (fieldsOfWord c).Fits row := by
  have hinj : Function.Injective wordOfFields := Function.LeftInverse.injective fieldsOfWord_wordOfFields
  have hop (x : BitVec 8) : x &&& 0xFF#8 = x := BitVec.and_allOnes
  have hfield (x : BitVec 4) : x &&& 0xF#4 = x := BitVec.and_allOnes
  obtain ⟨name, op, fmt⟩ := row
  rw [← wordOfFields_fieldsOfWord c, and_wordOfFields, hinj.eq_iff, fieldsOfWord_wordOfFields, Fields.Fits]
  cases fmt <;> simp [OpcodeRow.matchFields, Format.maskFields, Fields.unusedZero, hop, hfield,
    and_assoc, and_comm, and_left_comm]

/-- A word is selected by a row of the opcode map exactly when it decodes to a command of its mnemonic (R46, R47). -/
theorem and_mask_eq_match_iff_decode {r : String × CommandWord × CommandWord} (hr : r ∈ opcodeMap) (c : CommandWord) :
    c &&& r.2.2 = r.2.1 ↔ ∃ i, decode c = .ok i ∧ i.mnemonic = r.1 := by
  rw [opcodeMap_eq_map, List.mem_map] at hr
  obtain ⟨row, hrow, rfl⟩ := hr
  exact (and_mask_eq_match_iff c row).trans (fits_iff_decodeFields hrow)

/-- A word that decodes is selected by a row of the opcode map (R46, R48). -/
theorem exists_match_of_decode {c : CommandWord} (h : decode c = .ok i) : ∃ r ∈ opcodeMap, c &&& r.2.2 = r.2.1 := by
  obtain ⟨row, hrow, hfits, _⟩ := exists_row_of_decodeFields h
  exact ⟨_, opcodeMap_eq_map ▸ List.mem_map_of_mem hrow, (and_mask_eq_match_iff c row).2 hfits⟩

/-- A word is illegal exactly when no row of the opcode map selects it (R47, R48). -/
theorem decode_error_iff (c : CommandWord) :
    (∃ why, decode c = .error why) ↔ ∀ r ∈ opcodeMap, c &&& r.2.2 ≠ r.2.1 := by
  constructor
  · rintro ⟨why, hwhy⟩ r hr hsel
    obtain ⟨i, hi, _⟩ := (and_mask_eq_match_iff_decode hr c).1 hsel
    cases hwhy.symm.trans hi
  · intro hnone
    cases hdecode : decode c with
    | error why => exact ⟨why, rfl⟩
    | ok i =>
      obtain ⟨r, hr, hsel⟩ := exists_match_of_decode hdecode
      exact absurd hsel (hnone r hr)

/-- Settles O4: a row selects the words whose fields fit it, and these decode to its mnemonic. -/
theorem decodeFollowsMatchAndMask : Obligations.DecodeFollowsMatchAndMask :=
  ⟨fun _ hr c => and_mask_eq_match_iff_decode hr c, fun c => (decode_error_iff c).symm⟩

end Sys2Proof

namespace Sys2Proof.Machine

variable {W : Width} {i : Instr} {u : Fxu W}

/-! ### A step with a word presented -/

/-- Settles O10: a step with a legal word presented runs the command on the unit with the word on its ports. -/
theorem stepRunsTheDecodedCommand : Obligations.StepRunsTheDecodedCommand := fun _ u _ _ _ _ hp hi => step_legal u hp hi

/-- Settles O6: a word no row selects does not decode, and on a unit that is not faulted that raises `IllegalCommand`. -/
theorem illegalWordsTrap : Obligations.IllegalWordsTrap := by
  intro W u c d rest hp hc hnone
  obtain ⟨why, hwhy⟩ := (decode_error_iff c).2 hnone
  rw [step_illegal u hp hwhy, illegalCommand_running (u.present c d rest) hc]
  rfl

/-! ### The data operand -/

/-- The unit with another data operand on its port (R50). -/
def Fxu.setData (u : Fxu W) (d : BitVec W.bits) : Fxu W := { u with wdata := d }

variable {d : BitVec W.bits}

/-- A check that does not look at the data operand decides alike with another one. -/
theorem Fxu.setData_ite {p : Prop} [Decidable p] {t₁ t₁' t₂ t₂' : Fxu W} (h₁ : t₁' = t₁.setData d)
    (h₂ : t₂' = t₂.setData d) : (if p then t₁' else t₂') = (if p then t₁ else t₂).setData d := by
  split
  · exact h₁
  · exact h₂

/-- Reading a source does not look at the data operand (R14). -/
theorem Fxu.setData_withSource (r : RegNum) {k k' : BitVec W.bits → Nat → Fxu W}
    (hk : ∀ raw fb, k' raw fb = (k raw fb).setData d) : (u.setData d).withSource r k' = (u.withSource r k).setData d :=
  Fxu.setData_ite (hk _ _) rfl

/-- `ADD` and `SUB` do not look at the data operand (R66). -/
theorem Fxu.setData_aligned (vd va vb : RegNum) (f : Int → Int → Int) :
    (u.setData d).aligned vd va vb f = (u.aligned vd va vb f).setData d :=
  Fxu.setData_withSource va fun _ _ => Fxu.setData_withSource vb fun _ _ => rfl

/-- A comparator does not look at the data operand (R76). -/
theorem Fxu.setData_compare (va vb : RegNum) (test : BitVec W.bits → BitVec W.bits → Bool) :
    (u.setData d).compare va vb test = (u.compare va vb test).setData d :=
  Fxu.setData_withSource va fun _ _ => Fxu.setData_withSource vb fun _ _ => Fxu.setData_ite rfl rfl

/-- A command whose body does not look at the data operand, on two units that differ in it alone: both refuse it (R102), or
both do the same (R53). -/
theorem State.command_setData (k : (W : Width) → Fxu W → Fxu W) (hk : k W (u.setData d) = (k W u).setData d) :
    ∃ t : Fxu W, State.command ⟨W, u⟩ k = .next ⟨W, t⟩ ∧ State.command ⟨W, u.setData d⟩ k = .next ⟨W, t.setData d⟩ := by
  by_cases hc : u.status.cause = 0
  · exact ⟨_, State.command_running u k hc, (State.command_running (u.setData d) k hc).trans (by rw [hk])⟩
  · exact ⟨_, State.command_faulted u k hc, State.command_faulted (u.setData d) k hc⟩

/-- No command but `LOAD` looks at the data operand: its body is made of operations that do not (R50). -/
theorem exec_setData (u : Fxu W) (d : BitVec W.bits) (hi : ∀ vd imm8, i ≠ .load vd imm8) :
    ∃ t : Fxu W, exec i ⟨W, u⟩ = .next ⟨W, t⟩ ∧ exec i ⟨W, u.setData d⟩ = .next ⟨W, t.setData d⟩ := by
  cases i <;> dsimp only [exec, execLoad, execRescale, execAdd, execSub, execMul, execDiv, execCmpeq, execCmpne, execRdraw,
    execRdfb, execIpart, execFpart, execTotext, execRdstat] <;> refine State.command_setData _ ?_
  case load vd imm8 => exact absurd rfl (hi vd imm8)
  case rescale vd va imm8 =>
    exact Fxu.setData_withSource va fun _ _ => Fxu.setData_ite rfl (Fxu.setData_ite rfl rfl)
  case add vd va vb => exact Fxu.setData_aligned vd va vb _
  case sub vd va vb => exact Fxu.setData_aligned vd va vb _
  case mul vd va vb =>
    exact Fxu.setData_withSource va fun _ _ => Fxu.setData_withSource vb fun _ _ => Fxu.setData_ite rfl rfl
  case div vd va vb =>
    exact Fxu.setData_withSource va fun _ _ => Fxu.setData_withSource vb fun _ _ =>
      Fxu.setData_ite rfl (Fxu.setData_ite rfl rfl)
  case cmpeq va vb => exact Fxu.setData_compare va vb _
  case cmpne va vb => exact Fxu.setData_compare va vb _
  case rdraw va => exact Fxu.setData_withSource va fun _ _ => rfl
  case rdfb va => exact Fxu.setData_withSource va fun _ _ => rfl
  case ipart va => exact Fxu.setData_withSource va fun _ _ => rfl
  case fpart va => exact Fxu.setData_withSource va fun _ _ => rfl
  case totext va => exact Fxu.setData_withSource va fun _ _ => rfl
  case rdstat => rfl

/-- `LOAD` past its check writes the data operand (R55). -/
theorem exec_load_completes (u : Fxu W) (vd : RegNum) {imm8 : BitVec 8} (hc : u.status.cause = 0)
    (hlt : imm8.toNat < W.bits) :
    exec (.load vd imm8) ⟨W, u⟩ = .next ⟨W, (u.writeValue vd u.wdata imm8.toNat).respond 0⟩ := by
  rw [exec, execLoad, State.command_running u _ hc, if_neg (Bool.eq_false_iff.mp (immOutOfRange_eq_false_iff.2 hlt))]

/-- A step with a word presented that is not a `LOAD`, legal or not, and the same step with another data operand leave units
that differ in the data operand alone (R50). -/
theorem step_setData {c : CommandWord} {rest : List (HostEvent W)} (d' : BitVec W.bits)
    (hp : u.pending = .command c d :: rest) (hload : ∀ vd imm8, decode c ≠ .ok (.load vd imm8)) :
    ∃ t : Fxu W, step ⟨W, u⟩ = .next ⟨W, t⟩ ∧
      step ⟨W, { u with pending := .command c d' :: rest }⟩ = .next ⟨W, t.setData d'⟩ := by
  cases hdecode : decode c with
  | ok i =>
    rw [step_legal u hp hdecode, step_legal _ rfl hdecode]
    exact exec_setData (u.present c d rest) d' fun vd imm8 h => hload vd imm8 (h ▸ hdecode)
  | error why =>
    rw [step_illegal u hp hdecode, step_illegal _ rfl hdecode]
    exact State.command_setData (u := u.present c d rest) _ rfl

/-- Settles O34: no other word looks at the data operand, and `LOAD` writes all of it. -/
theorem dataOperandIsReadByLoadOnly : Obligations.DataOperandIsReadByLoadOnly := by
  intro W u c d d' rest hp
  refine ⟨step_setData d' hp, fun vd imm8 hdecode hc hlt => ?_⟩
  refine ⟨_, (step_legal u hp hdecode).trans (exec_load_completes (u.present c d rest) vd hc hlt), ?_⟩
  simp

end Sys2Proof.Machine

/-! ## Proofs: the statements of construction and access (40_construct_access.md)

What `LOAD` writes (R55), where `LOAD` and `RESCALE` trap (R55, R63, R64), and what the four readers of a value return
(R56 to R61). -/

namespace Sys2Proof.Machine

variable {W : Width} {u : Fxu W} {va : RegNum} {imm8 : BitVec 8}

/-! ### LOAD and RESCALE -/

/-- Settles O12: past its check `LOAD` writes the data operand, and the low six bits of the immediate are its tag. -/
theorem loadCreatesTheValue : Obligations.LoadCreatesTheValue := by
  intro W u vd imm8 hc hlt
  rw [exec_load_completes u vd hc hlt, Fxu.writeValue, BitVec.ofNat_toNat]
  rfl

/-- A command that begins with reading a source that holds a value goes on with that value (R14, R53). -/
theorem State.command_source_valid (k : (W : Width) → Fxu W → BitVec W.bits → Nat → Fxu W) (hc : u.status.cause = 0)
    (hv : (u.reg va).valid = true) :
    State.command ⟨W, u⟩ (fun W u => u.withSource va (k W u)) = .next ⟨W, k W u (u.reg va).raw (u.reg va).tag⟩ := by
  rw [State.command_running u _ hc, u.withSource_valid _ hv]

/-- The immediate check catches exactly what is not below `W` (R44). -/
theorem immOutOfRange_iff : immOutOfRange W imm8 = true ↔ W.bits ≤ imm8.toNat := by
  rw [immOutOfRange, decide_eq_true_iff]

/-- `LOAD` of an immediate not below `W` raises `ConfigError` (R55, R97). -/
theorem exec_load_configError (vd : RegNum) (hc : u.status.cause = 0) (hge : W.bits ≤ imm8.toNat) :
    exec (.load vd imm8) ⟨W, u⟩ = .next ⟨W, u.raise .configError⟩ := by
  rw [exec, execLoad, State.command_running u _ hc, if_pos (immOutOfRange_iff.2 hge)]

/-- `RESCALE` to an immediate not below `W` raises `ConfigError` (R63, R97). -/
theorem exec_rescale_configError (vd : RegNum) (hc : u.status.cause = 0) (hv : (u.reg va).valid = true)
    (hge : W.bits ≤ imm8.toNat) : exec (.rescale vd va imm8) ⟨W, u⟩ = .next ⟨W, u.raise .configError⟩ := by
  rw [exec, execRescale, State.command_source_valid _ hc hv, if_pos (immOutOfRange_iff.2 hge)]

/-- `RESCALE` to an immediate below `W` and below the source's tag raises `RescaleDown` (R64, R100). -/
theorem exec_rescale_rescaleDown (vd : RegNum) (hc : u.status.cause = 0) (hv : (u.reg va).valid = true)
    (hlt : imm8.toNat < W.bits) (hdown : imm8.toNat < (u.reg va).tag) :
    exec (.rescale vd va imm8) ⟨W, u⟩ = .next ⟨W, u.raise .rescaleDown⟩ := by
  rw [exec, execRescale, State.command_source_valid _ hc hv,
    if_neg (Bool.eq_false_iff.mp (immOutOfRange_eq_false_iff.2 hlt)), if_pos hdown]

/-- Settles O24: the three fault entries, `ConfigError` of both commands and `RescaleDown`. -/
theorem loadAndRescaleTrap : Obligations.LoadAndRescaleTrap := fun _ _ vd _ _ hc =>
  ⟨exec_load_configError vd hc, exec_rescale_configError vd hc, exec_rescale_rescaleDown vd hc⟩

/-! ### The readers of a value -/

/-- `RDRAW` of a value answers the raw value (R56). -/
theorem exec_rdraw_answers (hc : u.status.cause = 0) (hv : (u.reg va).valid = true) :
    exec (.rdraw va) ⟨W, u⟩ = .next ⟨W, u.respond (u.reg va).raw⟩ := by
  rw [exec, execRdraw, State.command_source_valid _ hc hv]

/-- `RDFB` of a value answers the six-bit tag field, resized to the storage width (R57). -/
theorem exec_rdfb_answers (hc : u.status.cause = 0) (hv : (u.reg va).valid = true) :
    exec (.rdfb va) ⟨W, u⟩ = .next ⟨W, u.respond ((u.reg va).fb.setWidth W.bits)⟩ := by
  rw [exec, execRdfb, State.command_source_valid _ hc hv, wrapW, BitVec.ofInt_natCast, ValueReg.tag, BitVec.ofNat_toNat]

/-- `IPART` of a value answers the narrowed quotient of the magnitude by `2^fb` (R60). -/
theorem exec_ipart_answers (hc : u.status.cause = 0) (hv : (u.reg va).valid = true) :
    exec (.ipart va) ⟨W, u⟩ = .next ⟨W, u.respond (wrapW W.bits (mag (u.reg va).raw / 2 ^ (u.reg va).tag))⟩ := by
  rw [exec, execIpart, State.command_source_valid _ hc hv]

/-- `FPART` of a value answers the narrowed remainder of the magnitude by `2^fb` (R61). -/
theorem exec_fpart_answers (hc : u.status.cause = 0) (hv : (u.reg va).valid = true) :
    exec (.fpart va) ⟨W, u⟩ = .next ⟨W, u.respond (wrapW W.bits (mag (u.reg va).raw % 2 ^ (u.reg va).tag))⟩ := by
  rw [exec, execFpart, State.command_source_valid _ hc hv]

/-- Settles O19: the answers of the two commands are the register's own two fields. -/
theorem rawAndTagAreReadBack : Obligations.RawAndTagAreReadBack := fun _ _ _ hc hv =>
  ⟨exec_rdraw_answers hc hv, exec_rdfb_answers hc hv⟩

/-- The magnitude is an unsigned number of `W` bits, at `MIN_W` too (R59). -/
theorem mag_lt (raw : BitVec W.bits) : mag raw < 2 ^ W.bits := by
  have hpos : 0 < W.bits := by cases W <;> decide
  calc mag raw ≤ 2 ^ (W.bits - 1) := mag_le raw
    _ < 2 ^ W.bits := Nat.two_pow_pred_lt_two_pow hpos

/-- `IPART` and `FPART` lose nothing by narrowing the quotient and the remainder of the magnitude (R60, R61). -/
theorem toNat_wrapW_magParts (raw : BitVec W.bits) (fb : Nat) :
    (wrapW W.bits (mag raw / 2 ^ fb)).toNat = mag raw / 2 ^ fb ∧
    (wrapW W.bits (mag raw % 2 ^ fb)).toNat = mag raw % 2 ^ fb := by
  have hdiv : mag raw / 2 ^ fb < 2 ^ W.bits := (Nat.div_le_self _ _).trans_lt (mag_lt raw)
  have hmod : mag raw % 2 ^ fb < 2 ^ W.bits := (Nat.mod_le _ _).trans_lt (mag_lt raw)
  exact ⟨mod_cast toNat_wrapW hdiv, mod_cast toNat_wrapW hmod⟩

/-- Settles O20: the two results are the quotient and the remainder of the magnitude by `2^fb`. -/
theorem partsRebuildTheMagnitude : Obligations.PartsRebuildTheMagnitude := by
  intro W u va hc hv
  obtain ⟨hip, hfp⟩ := toNat_wrapW_magParts (u.reg va).raw (u.reg va).tag
  refine ⟨_, _, exec_ipart_answers hc hv, exec_fpart_answers hc hv, ?_, ?_⟩
  · rw [hfp]
    exact Nat.mod_lt _ (Nat.two_pow_pos _)
  · rw [hip, hfp]
    exact Nat.div_add_mod' _ _

end Sys2Proof.Machine

/-! ## Proofs: the statements of the adder/subtractor (42_addsub.md)

The whole next state of `ADD` (R67) and `SUB` (R68): the result wrapped at each step is the exact one wrapped once
(section 3). -/

namespace Sys2Proof.Machine

variable {W : Width} {u : Fxu W} {va vb : RegNum}

/-- The barrel shifter gives the narrowed, exactly aligned operand (R62, R66). -/
theorem rescaleUp_eq_wrapW {w : Nat} (x : BitVec w) (m n : Nat) : rescaleUp x m n = wrapW w (x.toInt * 2 ^ (n - m)) :=
  lsl_eq_wrapW x (n - m)

/-- The sum of two narrowed integers narrows to what their exact sum does: wrapping once is enough (R69). -/
theorem wrapW_add_toInt_wrapW {w : Nat} (a b : Int) :
    wrapW w ((wrapW w a).toInt + (wrapW w b).toInt) = wrapW w (a + b) := by
  rw [wrapW_add, wrapW_toInt, wrapW_toInt, ← wrapW_add]

/-- The difference of two narrowed integers narrows to what their exact difference does (R69). -/
theorem wrapW_sub_toInt_wrapW {w : Nat} (a b : Int) :
    wrapW w ((wrapW w a).toInt - (wrapW w b).toInt) = wrapW w (a - b) := by
  rw [wrapW_sub, wrapW_toInt, wrapW_toInt, ← wrapW_sub]

/-- On two values an operation for which wrapping once is enough writes the narrowed exact combination of the aligned
operands, with the larger tag (R66). -/
theorem Fxu.aligned_valid (vd : RegNum) {combine : Int → Int → Int}
    (hwrap : ∀ a b : Int,
      wrapW W.bits (combine (wrapW W.bits a).toInt (wrapW W.bits b).toInt) = wrapW W.bits (combine a b))
    (ha : (u.reg va).valid = true) (hb : (u.reg vb).valid = true) :
    let rf := max (u.reg va).tag (u.reg vb).tag
    let a := (u.reg va).raw.toInt * 2 ^ (rf - (u.reg va).tag)
    let b := (u.reg vb).raw.toInt * 2 ^ (rf - (u.reg vb).tag)
    u.aligned vd va vb combine = (u.writeValue vd (wrapW W.bits (combine a b)) rf).respond 0 := by
  intro rf a b
  rw [Fxu.aligned, u.withSource_valid _ ha, u.withSource_valid _ hb]
  simp only [rescaleUp_eq_wrapW, hwrap, rf, a, b]

/-- Settles O14: wrapping the two shifts and then the sum is wrapping the exact aligned sum once. -/
theorem addSumsTheAlignedOperands : Obligations.AddSumsTheAlignedOperands := by
  intro W u vd va vb hc ha hb rf
  rw [exec, execAdd, State.command_running u _ hc, Fxu.aligned_valid vd wrapW_add_toInt_wrapW ha hb]
  rfl

/-- Settles O15: wrapping the two shifts and then the difference is wrapping the exact aligned difference once. -/
theorem subSubtractsTheAlignedOperands : Obligations.SubSubtractsTheAlignedOperands := by
  intro W u vd va vb hc ha hb rf
  rw [exec, execSub, State.command_running u _ hc, Fxu.aligned_valid vd wrapW_sub_toInt_wrapW ha hb]
  rfl

end Sys2Proof.Machine

/-! ## Proofs: the statements of the multiplier and the divider (43_muldiv.md)

The whole next state of `MUL` (R70), where `MUL` and `DIV` trap and in which order (R71, R73, R74), and the one overflow of
the quotient (R75). -/

namespace Sys2Proof.Machine

variable {W : Width} {u : Fxu W} {va vb : RegNum}

/-- A command that begins with reading two sources that hold values goes on with those values (R14, R53). -/
theorem State.command_sources_valid (k : (W : Width) → Fxu W → BitVec W.bits → Nat → BitVec W.bits → Nat → Fxu W)
    (hc : u.status.cause = 0) (ha : (u.reg va).valid = true) (hb : (u.reg vb).valid = true) :
    State.command ⟨W, u⟩ (fun W u => u.withSource va fun rawA fa => u.withSource vb fun rawB fb => k W u rawA fa rawB fb) =
      .next ⟨W, k W u (u.reg va).raw (u.reg va).tag (u.reg vb).raw (u.reg vb).tag⟩ := by
  rw [State.command_source_valid _ hc ha, u.withSource_valid _ hb]

/-! ### MUL -/

/-- The narrowed product of the signed readings is the product of bit vectors, which does not depend on the reading
(R70). -/
theorem wrapW_mul_toInt {w : Nat} (a b : BitVec w) : wrapW w (a.toInt * b.toInt) = a * b := by
  rw [wrapW_mul, wrapW_toInt, wrapW_toInt]

/-- The low six bits of the sum of two tags are the sum of the six-bit fields (R70). -/
theorem ValueReg.ofNat_tag_add (a b : ValueReg W) : BitVec.ofNat 6 (a.tag + b.tag) = a.fb + b.fb := by
  simp [ValueReg.tag, BitVec.ofNat_add]

/-- `MUL` past its check writes the narrowed product (R70). -/
theorem exec_mul_completes (vd : RegNum) (hc : u.status.cause = 0) (ha : (u.reg va).valid = true)
    (hb : (u.reg vb).valid = true) (hlt : (u.reg va).tag + (u.reg vb).tag < W.bits) :
    exec (.mul vd va vb) ⟨W, u⟩ =
      .next ⟨W, (u.writeValue vd (wrapW W.bits ((u.reg va).raw.toInt * (u.reg vb).raw.toInt))
        ((u.reg va).tag + (u.reg vb).tag)).respond 0⟩ := by
  rw [exec, execMul, State.command_sources_valid _ hc ha hb, if_neg (Nat.not_le.2 hlt)]

/-- Settles O16: past its check `MUL` writes the narrowed product, which is the product of bit vectors, and the sum of the
tags. -/
theorem mulMultipliesUnshifted : Obligations.MulMultipliesUnshifted := by
  intro W u vd va vb hc ha hb hlt
  refine ⟨?_, (wrapW_mul_toInt _ _).symm⟩
  rw [exec_mul_completes vd hc ha hb hlt, wrapW_mul_toInt, Fxu.writeValue, ValueReg.ofNat_tag_add]
  rfl

/-! ### The traps of MUL and DIV -/

/-- `MUL` with a tag sum not below `W` raises `ConfigError` (R71, R97). -/
theorem exec_mul_configError (vd : RegNum) (hc : u.status.cause = 0) (ha : (u.reg va).valid = true)
    (hb : (u.reg vb).valid = true) (hge : W.bits ≤ (u.reg va).tag + (u.reg vb).tag) :
    exec (.mul vd va vb) ⟨W, u⟩ = .next ⟨W, u.raise .configError⟩ := by
  rw [exec, execMul, State.command_sources_valid _ hc ha hb, if_pos hge]

/-- `DIV` of a value by one of a larger tag raises `ConfigError`, a zero divisor included (R73, R97, R103). -/
theorem exec_div_configError (vd : RegNum) (hc : u.status.cause = 0) (ha : (u.reg va).valid = true)
    (hb : (u.reg vb).valid = true) (hlt : (u.reg va).tag < (u.reg vb).tag) :
    exec (.div vd va vb) ⟨W, u⟩ = .next ⟨W, u.raise .configError⟩ := by
  rw [exec, execDiv, State.command_sources_valid _ hc ha hb, if_pos hlt]

/-- `DIV` by zero past the tag check raises `DomainError` (R74, R98). -/
theorem exec_div_domainError (vd : RegNum) (hc : u.status.cause = 0) (ha : (u.reg va).valid = true)
    (hb : (u.reg vb).valid = true) (hle : (u.reg vb).tag ≤ (u.reg va).tag) (hz : (u.reg vb).raw = 0#W.bits) :
    exec (.div vd va vb) ⟨W, u⟩ = .next ⟨W, u.raise .domainError⟩ := by
  rw [exec, execDiv, State.command_sources_valid _ hc ha hb, if_neg (Nat.not_lt.2 hle), if_pos hz]

/-- Settles O25: the three fault entries, `ConfigError` of both commands and `DomainError`. -/
theorem mulAndDivTrap : Obligations.MulAndDivTrap := fun _ _ vd _ _ hc ha hb =>
  ⟨exec_mul_configError vd hc ha hb, exec_div_configError vd hc ha hb, exec_div_domainError vd hc ha hb⟩

/-! ### The overflowing quotient -/

/-- Dividing by `-1` negates, exactly (R12). -/
theorem tdiv_neg_one (n : Int) : tdiv n (-1) = -n := by
  rw [tdiv, Int.tdiv_neg, Int.tdiv_one]

/-- `2^(w-1)`, one more than the largest signed number of `w` bits, narrows to `MIN_W` (R7, R75). -/
theorem wrapW_two_pow_pred (w : Nat) : wrapW w (2 ^ (w - 1)) = BitVec.intMin w := by
  rw [wrapW, ← neg_neg ((2 : Int) ^ (w - 1)), BitVec.ofInt_neg, ← BitVec.intMin_eq_neg_two_pow, BitVec.neg_intMin]

/-- The divisor `-1` is not zero at any storage width (R74). -/
theorem divisor_neg_one_ne_zero (W : Width) : (-1 : BitVec W.bits) ≠ 0#W.bits := by cases W <;> decide

/-- Settles O46: `DIV` writes the narrowed quotient, which for `MIN_W` by `-1` is `MIN_W`. -/
theorem minDividedByMinusOneIsMin : Obligations.MinDividedByMinusOneIsMin := by
  intro W u vd va vb
  refine ⟨⟨by rw [tdiv_neg_one, neg_neg], fun h => lt_irrefl _ h.2, wrapW_two_pow_pred _⟩, ?_⟩
  intro hc ha hb hle hmin hone
  have hz : (u.reg vb).raw ≠ 0#W.bits := hone ▸ divisor_neg_one_ne_zero W
  have hq : wrapW W.bits (tdiv (u.reg va).raw.toInt (u.reg vb).raw.toInt) = BitVec.intMin W.bits := by
    rw [wrapW_tdiv_toInt, hmin, hone]
    exact BitVec.intMin_sdiv_neg_one
  have htag : (u.reg va).tag - (u.reg vb).tag < 64 := (Nat.sub_le _ _).trans_lt (u.reg va).tag_lt
  refine ⟨_, exec_div_completes u vd hc ha hb hle hz, hc, ?_, ?_⟩ <;> rw [Fxu.respond_reg, Fxu.writeValue_reg_self]
  · exact hq
  · exact ValueReg.tag_ofNat htag _ _

end Sys2Proof.Machine

/-! ## Proofs: the statements of the comparators and the status read (44_compare.md)

The whole next state of `CMPEQ` and `CMPNE` when the tags agree (R77, R78) and when they differ (R76, R99), and the answer of
`RDSTAT` (R79). -/

namespace Sys2Proof.Machine

variable {W : Width} {u : Fxu W} {va vb : RegNum} {test : BitVec W.bits → BitVec W.bits → Bool}

/-! ### CMPEQ and CMPNE -/

/-- Two values have the same tag exactly when their six-bit fields agree (R6, R18). -/
theorem ValueReg.tag_eq_iff {a b : ValueReg W} : a.tag = b.tag ↔ a.fb = b.fb := BitVec.toNat_inj

/-- The comparator on two values of the same tag writes the outcome of its test to `T` and returns it (R76). -/
theorem Fxu.compare_of_fb_eq (ha : (u.reg va).valid = true) (hb : (u.reg vb).valid = true)
    (hfb : (u.reg va).fb = (u.reg vb).fb) :
    u.compare va vb test =
      (u.setT (test (u.reg va).raw (u.reg vb).raw)).respond (flagWord W (test (u.reg va).raw (u.reg vb).raw)) := by
  rw [Fxu.compare, u.withSource_valid _ ha, u.withSource_valid _ hb, if_neg (not_not_intro (ValueReg.tag_eq_iff.2 hfb))]

/-- The comparator on two values of different tags raises `TypeMismatch`, whatever its test (R76, R99). -/
theorem Fxu.compare_of_fb_ne (ha : (u.reg va).valid = true) (hb : (u.reg vb).valid = true)
    (hfb : (u.reg va).fb ≠ (u.reg vb).fb) : u.compare va vb test = u.raise .typeMismatch := by
  rw [Fxu.compare, u.withSource_valid _ ha, u.withSource_valid _ hb, if_pos (mt ValueReg.tag_eq_iff.1 hfb)]

/-- On a unit that is not faulted, writing `T` makes the whole of `STATUS` the flag (R14, R21). -/
theorem Fxu.setT_of_cause_zero (hc : u.status.cause = 0) (b : Bool) : u.setT b = { u with status := ⟨b, 0⟩ } := by
  simp only [Fxu.setT, hc]

/-- The flag of `CMPEQ` as it is returned (R54, R77). -/
theorem flagWord_rawEqual (a b : BitVec W.bits) : flagWord W (rawEqual a b) = if a = b then 1 else 0 := by
  simp only [flagWord_eq, rawEqual, decide_eq_true_eq]

/-- The flag of `CMPNE` as it is returned (R54, R78). -/
theorem flagWord_rawUnequal (a b : BitVec W.bits) : flagWord W (rawUnequal a b) = if a = b then 0 else 1 := by
  simp only [flagWord_eq, rawUnequal, decide_eq_true_eq, ne_eq, ite_not]

/-- Settles O18: on equal tags each comparator writes and returns the outcome of its own test. -/
theorem comparesWriteAndReturnT : Obligations.ComparesWriteAndReturnT := by
  intro W u va vb hc ha hb hfb
  constructor
  · rw [exec, execCmpeq, State.command_running u _ hc, Fxu.compare_of_fb_eq ha hb hfb, flagWord_rawEqual,
      Fxu.setT_of_cause_zero hc]
    rfl
  · rw [exec, execCmpne, State.command_running u _ hc, Fxu.compare_of_fb_eq ha hb hfb, flagWord_rawUnequal,
      Fxu.setT_of_cause_zero hc]
    rfl

/-- Settles O26: the tags are checked before the test, so both comparators enter the same fault. -/
theorem comparesTrapOnDifferentTags : Obligations.ComparesTrapOnDifferentTags := by
  intro W u va vb hc ha hb hfb
  constructor
  · rw [exec, execCmpeq, State.command_running u _ hc, Fxu.compare_of_fb_ne ha hb hfb]
    rfl
  · rw [exec, execCmpne, State.command_running u _ hc, Fxu.compare_of_fb_ne ha hb hfb]
    rfl

/-! ### RDSTAT -/

/-- With `CAUSE` 0, the bits of `STATUS` above `T` are zero, so that `STATUS` on `rdata` is the flag alone (R21, R79). -/
theorem StatusReg.setWidth_read_of_cause_zero {st : StatusReg} (h : st.cause = 0) :
    st.read.setWidth W.bits = flagWord W st.t := by
  rw [StatusReg.read, h]
  cases W <;> cases st.t <;> decide

/-- Settles O21: `RDSTAT` only answers, and a unit that is not faulted answers its flag. -/
theorem statusReadReturnsT : Obligations.StatusReadReturnsT := by
  intro W u hc
  rw [exec, execRdstat, State.command_running u _ hc, StatusReg.setWidth_read_of_cause_zero hc, flagWord_eq]
  rfl

end Sys2Proof.Machine

/-! ## Proofs: the statements of the text (45_text.md)

The fraction scan as a sum and its bound (R84, R85, R87), and the whole next state of `TOTEXT` (R81 to R89). -/

namespace Sys2Proof.Machine

variable {W : Width} {u : Fxu W} {va : RegNum}

/-! ### The signs -/

/-- A value is negative exactly when its signed reading is (R81). -/
theorem isNegative_iff {w : Nat} {raw : BitVec w} : isNegative raw = true ↔ raw.toInt < 0 := by
  rw [isNegative, decide_eq_true_iff]

/-- The integer portion from the signed reading alone (R83). -/
theorem integerPortion_eq {w : Nat} (raw : BitVec w) (fb : Nat) :
    integerPortion raw fb = raw.toInt / 2 ^ fb + if raw.toInt < 0 then 1 else 0 := by
  simp only [integerPortion, asr, isNegative_iff]

/-- The explicit minus sign from the signed reading and the integer portion (R82). -/
theorem lead_eq {w : Nat} (raw : BitVec w) (fb : Nat) :
    lead raw fb = if raw.toInt < 0 ∧ 0 ≤ integerPortion raw fb then [charMinus] else [] := by
  simp only [lead, Bool.and_eq_true, isNegative_iff, decide_eq_true_eq]

/-! ### The fraction scan -/

/-- One more fraction bit adds its term or nothing (R84). -/
theorem scan_succ (raw : BitVec W.bits) (fb n : Nat) :
    scan W raw fb (n + 1) = scan W raw fb n + if contributes raw n then term W (fb - n) else 0 := by
  rw [scan]
  split <;> rfl

/-- The scan of the first `n` bits is the sum of the terms of those that contribute (R84). -/
theorem scan_eq_sum (raw : BitVec W.bits) (fb n : Nat) :
    scan W raw fb n = ((List.range n).map fun i => if contributes raw i then term W (fb - i) else 0).sum := by
  induction n with
  | zero => rfl
  | succ n ih => rw [scan_succ, ih, List.sum_range_succ]

/-- The term of bit `n` is at most its exact share of `10^P` (R84). -/
theorem term_mul_two_pow_le {fb n : Nat} (h : n ≤ fb) : term W (fb - n) * 2 ^ fb ≤ 10 ^ precision W * 2 ^ n :=
  calc
    term W (fb - n) * 2 ^ fb = term W (fb - n) * 2 ^ (fb - n) * 2 ^ n := by
      rw [mul_assoc, ← pow_add, Nat.sub_add_cancel h]
    _ ≤ 10 ^ precision W * 2 ^ n := Nat.mul_le_mul_right _ (Nat.div_mul_le_self _ _)

/-- The first `n` bits add up to at most `10^P * (2^n - 1) / 2^fb`, the geometric sum of their exact shares; stated
without the subtraction and the fraction (R87). -/
theorem scan_mul_two_pow_le (raw : BitVec W.bits) {fb n : Nat} (h : n ≤ fb) :
    scan W raw fb n * 2 ^ fb + 10 ^ precision W ≤ 10 ^ precision W * 2 ^ n := by
  induction n with
  | zero => simp [scan]
  | succ n ih =>
    have hrest := ih (by omega)
    have hterm := term_mul_two_pow_le (W := W) (by omega : n ≤ fb)
    rw [scan_succ, pow_succ, ← mul_assoc, add_mul]
    split <;> omega

/-- The accumulator stays below `10^P`, whatever the tag (R87). -/
theorem accumulator_lt (raw : BitVec W.bits) (fb : Nat) : accumulator W raw fb < 10 ^ precision W := by
  have hscan := scan_mul_two_pow_le raw (le_refl fb)
  have hpos : 0 < 10 ^ precision W := Nat.pow_pos (by omega)
  exact Nat.lt_of_mul_lt_mul_right (a := 2 ^ fb) (by rw [accumulator]; omega)

/-- So the carry rule never applies, and the text is that of the normal output (R86 to R88). -/
theorem render_eq (raw : BitVec W.bits) (fb : Nat) :
    render W raw fb = lead raw fb ++ sdec (integerPortion raw fb) ++ [charPoint] ++ dec (accumulator W raw fb) := by
  rw [render, if_neg (accumulator_lt raw fb).ne]

/-! ### The selected bits -/

/-- The bits that contribute are those of the low part of the raw value, complemented for a negative one (R84). -/
theorem testBit_selectedBits {w : Nat} (raw : BitVec w) {fb i : Nat} (h : i < fb) :
    (selectedBits raw fb).testBit i = contributes raw i := by
  have hmod : (raw.toNat % 2 ^ fb).testBit i = raw.getLsbD i := by
    rw [Nat.testBit_mod_two_pow, decide_eq_true h, Bool.true_and, BitVec.testBit_toNat]
  have hcompl : (2 ^ fb - 1 - raw.toNat % 2 ^ fb).testBit i = !raw.getLsbD i := by
    rw [Nat.sub_sub, Nat.add_comm, Nat.testBit_two_pow_sub_succ (Nat.mod_lt _ (Nat.two_pow_pos fb)), decide_eq_true h,
      Bool.true_and, hmod]
  simp only [selectedBits, contributes, isNegative_iff]
  split
  · exact hcompl
  · exact hmod

/-- The accumulator is the sum of the terms of the selected bits (R84, R85). -/
theorem accumulator_eq_selectedTerms (raw : BitVec W.bits) (fb : Nat) :
    accumulator W raw fb = selectedTerms W raw fb := by
  rw [accumulator, scan_eq_sum, selectedTerms]
  refine congrArg List.sum (List.map_congr_left fun i hi => ?_)
  rw [testBit_selectedBits raw (List.mem_range.1 hi), term]

/-! ### TOTEXT -/

/-- `TOTEXT` of a value emits its text and answers the length (R81, R89). -/
theorem exec_totext_completes (hc : u.status.cause = 0) (hv : (u.reg va).valid = true) :
    exec (.totext va) ⟨W, u⟩ =
      .next ⟨W, (u.emit (render W (u.reg va).raw (u.reg va).tag)).respond
        (wrapW W.bits (render W (u.reg va).raw (u.reg va).tag).length)⟩ := by
  rw [exec, execTotext, State.command_source_valid _ hc hv]

/-- Settles O22: the accumulator is the sum of the selected terms, and as it stays below `10^P` the text is that of the
normal output. -/
theorem totextEmitsTheRendering : Obligations.TotextEmitsTheRendering := by
  intro W u va hc hv raw fb ip text
  have htext : render W raw fb = text := by
    rw [render_eq, lead_eq, integerPortion_eq, accumulator_eq_selectedTerms]
    rfl
  rw [exec_totext_completes hc hv, htext, wrapW, BitVec.ofInt_natCast]
  rfl

end Sys2Proof.Machine

/-! ## Proofs: the statements of the exceptions (60_exceptions.md)

When `InvalidOperand` is raised (R96, R103), what fault entry changes (R101), and that a faulted unit refuses every command,
in one step and along any run without a reset (R102, R104). -/

namespace Sys2Proof.Machine

variable {W : Width} {i : Instr} {u t : Fxu W} {c : CommandWord} {d : BitVec W.bits} {rest : List (HostEvent W)}

/-! ### The faulted state -/

/-- A step with a command presented to a faulted unit refuses it, whatever the word (R102). -/
theorem step_command_faulted (hp : u.pending = .command c d :: rest) (hc : u.status.cause ≠ 0) :
    step ⟨W, u⟩ = .next ⟨W, (u.present c d rest).refuse⟩ := by
  obtain ⟨t, hstep, ⟨_, rfl⟩ | ⟨h0, _⟩⟩ := step_command_cases u hp
  · exact hstep
  · exact absurd h0 hc

/-- Settles O27: the refusal writes out the ports presented and the one response. -/
theorem faultedUnitRefusesEveryCommand : Obligations.FaultedUnitRefusesEveryCommand :=
  fun _ _ _ _ _ hp hc => step_command_faulted hp hc

/-- Settles O40, by induction on the number of steps: a refusal leaves a unit as faulted as before with one response more,
and a step with nothing presented leaves it as it is. -/
theorem faultedUntilReset : Obligations.FaultedUntilReset := by
  intro k W
  induction k with
  | zero => exact fun u _ _ => ⟨u, rfl, rfl, rfl, rfl, by simp⟩
  | succ k ih =>
    intro u hc hnrst
    match hp : u.pending with
    | [] => exact ⟨u, run_fixed (k + 1) (step_nil u hp), rfl, rfl, rfl, by simp⟩
    | .rst :: rest => exact absurd rfl (hnrst .rst (by simp [hp]))
    | .command c d :: rest =>
      have hrest : ∀ e ∈ rest.take k, e ≠ .rst := fun e he => hnrst e (by simp [hp, he])
      obtain ⟨t, hrun, hregs, hstatus, htxs, hresponses⟩ := ih (u.present c d rest).refuse hc hrest
      refine ⟨t, (run_succ k (step_command_faulted hp hc)).trans hrun, hregs, hstatus, htxs, ?_⟩
      simp [hresponses, Nat.succ_min_succ, List.replicate_succ]

/-! ### Sources without a value -/

/-- Code 2 is the code of `InvalidOperand` alone (R94). -/
theorem Cause.code_eq_two_iff {c : Cause} : c.code = 2 ↔ c = .invalidOperand := by cases c <;> decide

/-- With a source that holds no value a command can only raise `InvalidOperand` (R96, R103). -/
theorem Effect.eq_raise_of_invalid (he : Effect i u t) (hinv : ∃ r ∈ i.sources, (u.reg r).valid = false) :
    t = u.raise .invalidOperand := by
  cases he with
  | raised c hc => rw [hc.2 hinv]
  | written _ _ _ hv | compared _ _ hv | emitted _ _ hv | answered _ hv =>
    obtain ⟨r, hr, hfalse⟩ := hinv
    exact absurd (hv r hr) (by simp [hfalse])

/-- With valid sources no command latches the code of `InvalidOperand` (R96). -/
theorem Effect.cause_ne_two (he : Effect i u t) (hc : u.status.cause = 0)
    (hv : ∀ r ∈ i.sources, (u.reg r).valid = true) : t.status.cause ≠ 2 := by
  cases he with
  | raised c hinv =>
    intro htwo
    obtain ⟨r, hr, hfalse⟩ := hinv.1 (Cause.code_eq_two_iff.1 htwo)
    exact absurd (hv r hr) (by simp [hfalse])
  | written | compared | emitted | answered => simp [hc]

/-- Settles O23: the effect of a command is the fault entry of `InvalidOperand` exactly when a source holds no value. -/
theorem invalidSourcesTrap : Obligations.InvalidSourcesTrap := by
  intro i W u hc
  obtain ⟨t, hexec, heff⟩ := exec_effect i u hc
  rw [hexec]
  refine ⟨fun hinv => ?_, fun t' hv h => ?_⟩
  · rw [heff.eq_raise_of_invalid hinv]
    rfl
  · cases h
    exact heff.cause_ne_two hc hv

/-! ### Fault entry -/

/-- A step that latches a code on a unit that was not faulted is a fault entry of the unit with the word on its ports,
whether the word is legal or not (R101). -/
theorem step_eq_raise_of_faulted (hp : u.pending = .command c d :: rest) (hc : u.status.cause = 0)
    (h : step ⟨W, u⟩ = .next ⟨W, t⟩) (ht : t.status.cause ≠ 0) : ∃ f : Cause, t = (u.present c d rest).raise f := by
  cases hdecode : decode c with
  | ok i =>
    rw [step_legal u hp hdecode] at h
    obtain hkept | ⟨_, f, hraise⟩ := exec_cause_cases h
    · exact absurd (hkept.trans hc) ht
    · exact ⟨f, hraise⟩
  | error why =>
    rw [step_illegal u hp hdecode, illegalCommand_running (u.present c d rest) hc] at h
    cases h
    exact ⟨.illegalCommand, rfl⟩

/-- Settles O28: the step is a fault entry, which writes the latch and the response, and its code is one of 1 to 6. -/
theorem faultEntryIsPrecise : Obligations.FaultEntryIsPrecise := by
  intro W u t c d rest hp hc h ht
  obtain ⟨f, rfl⟩ := step_eq_raise_of_faulted hp hc h ht
  exact ⟨rfl, (Fxu.not_faulted_iff u).2 hc, (Fxu.faulted_iff _).2 ht, f.code_range.2⟩

end Sys2Proof.Machine

/-! ## Proofs: what the results mean

The real values (R19) of what `RESCALE`, `ADD`, `SUB`, `MUL` and `DIV` write where nothing overflows (41_rescale.md,
42_addsub.md section 3, 43_muldiv.md), and the laws of the comparators (44_compare.md section 3). -/

namespace Sys2Proof.Machine

variable {W : Width} {u : Fxu W} {va vb : RegNum} {imm8 : BitVec 8}

/-! ### Real values -/

/-- A storage width is not zero (R5). -/
theorem width_pos (W : Width) : 0 < W.bits := by cases W <;> decide

/-- The value just written, where the integer fits and six bits hold the tag: its tag and its real value (R14, R19). -/
theorem Fxu.writeValue_tag_realValue (u : Fxu W) (vd : RegNum) {n : Int} {fb : Nat} (hn : fits W n) (hfb : fb < 64) :
    ((u.writeValue vd (wrapW W.bits n) fb).reg vd).tag = fb ∧
    ((u.writeValue vd (wrapW W.bits n) fb).reg vd).realValue = n / 2 ^ fb := by
  obtain ⟨hlo, hhi⟩ := hn
  rw [Fxu.writeValue_reg_self, ValueReg.realValue, ValueReg.tag_ofNat hfb, toInt_wrapW (width_pos W) hlo hhi]
  exact ⟨rfl, rfl⟩

/-- Aligning a value to as many or more fractional bits, exactly, keeps its real value (R62, R66). -/
theorem ValueReg.aligned_realValue (v : ValueReg W) {rf : Nat} (h : v.tag ≤ rf) :
    ((v.raw.toInt * 2 ^ (rf - v.tag) : Int) : ℚ) / 2 ^ rf = v.realValue := by
  have hpow : (2 : ℚ) ^ rf = 2 ^ v.tag * 2 ^ (rf - v.tag) := by rw [← pow_add, Nat.add_sub_cancel' h]
  rw [ValueReg.realValue, hpow]
  push_cast
  exact mul_div_mul_right _ _ (by positivity)

/-- Two values of one tag have the same real value exactly when they have the same raw value (R19). -/
theorem ValueReg.realValue_eq_iff {a b : ValueReg W} (h : a.tag = b.tag) : a.realValue = b.realValue ↔ a.raw = b.raw := by
  have hpow : (2 : ℚ) ^ b.tag ≠ 0 := by positivity
  rw [ValueReg.realValue, ValueReg.realValue, h, div_left_inj' hpow, Int.cast_inj, BitVec.toInt_inj]

/-! ### ADD, SUB and MUL -/

/-- `ADD` of two values writes the narrowed exact aligned sum (R67, R69). -/
theorem exec_add_completes (vd : RegNum) (hc : u.status.cause = 0) (ha : (u.reg va).valid = true)
    (hb : (u.reg vb).valid = true) :
    let rf := max (u.reg va).tag (u.reg vb).tag
    let a := (u.reg va).raw.toInt * 2 ^ (rf - (u.reg va).tag)
    let b := (u.reg vb).raw.toInt * 2 ^ (rf - (u.reg vb).tag)
    exec (.add vd va vb) ⟨W, u⟩ = .next ⟨W, (u.writeValue vd (wrapW W.bits (a + b)) rf).respond 0⟩ := by
  rw [exec, execAdd, State.command_running u _ hc, Fxu.aligned_valid vd wrapW_add_toInt_wrapW ha hb]

/-- `SUB` of two values writes the narrowed exact aligned difference (R68, R69). -/
theorem exec_sub_completes (vd : RegNum) (hc : u.status.cause = 0) (ha : (u.reg va).valid = true)
    (hb : (u.reg vb).valid = true) :
    let rf := max (u.reg va).tag (u.reg vb).tag
    let a := (u.reg va).raw.toInt * 2 ^ (rf - (u.reg va).tag)
    let b := (u.reg vb).raw.toInt * 2 ^ (rf - (u.reg vb).tag)
    exec (.sub vd va vb) ⟨W, u⟩ = .next ⟨W, (u.writeValue vd (wrapW W.bits (a - b)) rf).respond 0⟩ := by
  rw [exec, execSub, State.command_running u _ hc, Fxu.aligned_valid vd wrapW_sub_toInt_wrapW ha hb]

/-- Settles O41: a result that fits is written whole, and over the common denominator the aligned integers are the real
values of the operands. -/
theorem addAndSubAreExactWithoutOverflow : Obligations.AddAndSubAreExactWithoutOverflow := by
  intro W u vd va vb hc ha hb rf a b _ _
  have hrf : rf < 64 := max_lt (u.reg va).tag_lt (u.reg vb).tag_lt
  have hva : (a : ℚ) / 2 ^ rf = (u.reg va).realValue := (u.reg va).aligned_realValue (le_max_left _ _)
  have hvb : (b : ℚ) / 2 ^ rf = (u.reg vb).realValue := (u.reg vb).aligned_realValue (le_max_right _ _)
  refine ⟨fun hfits => ⟨_, exec_add_completes vd hc ha hb, ?_⟩, fun hfits => ⟨_, exec_sub_completes vd hc ha hb, ?_⟩⟩
  · obtain ⟨_, hreal⟩ := u.writeValue_tag_realValue vd hfits hrf
    rw [Fxu.respond_reg, hreal, Int.cast_add, add_div, hva, hvb]
  · obtain ⟨_, hreal⟩ := u.writeValue_tag_realValue vd hfits hrf
    rw [Fxu.respond_reg, hreal, Int.cast_sub, sub_div, hva, hvb]

/-- Settles O42: a product that fits is written whole, and the tags add as the denominators multiply. -/
theorem mulIsExactWithoutOverflow : Obligations.MulIsExactWithoutOverflow := by
  intro W u vd va vb hc ha hb hlt hfits
  obtain ⟨_, hreal⟩ := u.writeValue_tag_realValue vd hfits (hlt.trans_le (width_le W))
  refine ⟨_, exec_mul_completes vd hc ha hb hlt, ?_⟩
  rw [Fxu.respond_reg, hreal, Int.cast_mul, pow_add, ← div_mul_div_comm, ValueReg.realValue, ValueReg.realValue]

/-! ### DIV -/

/-- The truncated quotient is not larger in magnitude than the exact one (R12). -/
theorem abs_tdiv_le {a b : Int} (hb : b ≠ 0) : |(tdiv a b : ℚ)| ≤ |(a / b : ℚ)| := by
  have hmul : |tdiv a b| * |b| ≤ |a| := by
    have hnat : (tdiv a b).natAbs * b.natAbs ≤ a.natAbs := by
      rw [tdiv, Int.natAbs_tdiv]
      exact Nat.div_mul_le_self _ _
    zify at hnat
    exact hnat
  have hpos : (0 : ℚ) < |(b : ℚ)| := abs_pos.2 (Int.cast_ne_zero.2 hb)
  rw [abs_div, le_div_iff₀ hpos]
  exact_mod_cast hmul

/-- The truncated quotient does not have the opposite sign of the exact one (R12). -/
theorem tdiv_mul_div_nonneg {a b : Int} (hb : b ≠ 0) : (0 : ℚ) ≤ tdiv a b * (a / b) := by
  have hmul : 0 ≤ tdiv a b * (a * b) := by
    rw [← Int.sign_nonneg_iff, Int.sign_mul, Int.sign_mul, tdiv, Int.sign_tdiv]
    split
    · rw [zero_mul]
    · exact mul_self_nonneg _
  have hdiv : (tdiv a b * (a / b) : ℚ) = (tdiv a b * (a * b) : Int) / (b : ℚ) ^ 2 := by
    have hb' : (b : ℚ) ≠ 0 := Int.cast_ne_zero.2 hb
    push_cast
    field_simp
  rw [hdiv]
  exact div_nonneg (Int.cast_nonneg hmul) (sq_nonneg _)

/-- The truncated quotient is less than one away from the exact one (R12). -/
theorem abs_div_sub_tdiv_lt {a b : Int} (hb : b ≠ 0) : |(a / b - tdiv a b : ℚ)| < 1 := by
  have hrem : |a.tmod b| < |b| := by
    have hnat : (a.tmod b).natAbs < b.natAbs := by
      rw [Int.natAbs_tmod]
      exact Nat.mod_lt _ (Int.natAbs_pos.2 hb)
    zify at hnat
    exact hnat
  have hb' : (b : ℚ) ≠ 0 := Int.cast_ne_zero.2 hb
  have hsplit : (a / b - tdiv a b : ℚ) = a.tmod b / b := by
    have hcast : (b * tdiv a b + a.tmod b : ℚ) = a := mod_cast Int.mul_tdiv_add_tmod a b
    rw [← hcast]
    field_simp
    ring
  rw [hsplit, abs_div, div_lt_one (abs_pos.2 hb')]
  exact_mod_cast hrem

/-- Away from the one overflow the quotient fits (R75). -/
theorem fits_tdiv {a b : BitVec W.bits} (h : ¬(a.toInt = -2 ^ (W.bits - 1) ∧ b.toInt = -1)) :
    fits W (tdiv a.toInt b.toInt) := by
  have hq : (a.sdiv b).toInt = tdiv a.toInt b.toInt := by
    refine BitVec.toInt_sdiv_of_ne_or_ne a b (not_and_or.1 fun ⟨hmin, hone⟩ => h ⟨?_, ?_⟩)
    · rw [hmin]
      exact BitVec.toInt_intMin_of_pos (width_pos W)
    · subst hone
      cases W <;> decide
  rw [← hq]
  exact ⟨BitVec.le_toInt _, BitVec.toInt_lt⟩

/-- The real quotient of two values is the quotient of the raw values over the difference of the tags (R72). -/
theorem ValueReg.realValue_div {a b : ValueReg W} (h : b.tag ≤ a.tag) :
    a.realValue / b.realValue = (a.raw.toInt / b.raw.toInt : ℚ) / 2 ^ (a.tag - b.tag) := by
  have hpow : (2 : ℚ) ^ a.tag = 2 ^ (a.tag - b.tag) * 2 ^ b.tag := by rw [← pow_add, Nat.sub_add_cancel h]
  rw [ValueReg.realValue, ValueReg.realValue, hpow, div_div_div_eq]
  field_simp

/-- Settles O43: written over the difference of the tags, the truncated quotient of the raw values stands to their exact
quotient as the statement says. -/
theorem divRoundsTheRealQuotientTowardZero : Obligations.DivRoundsTheRealQuotientTowardZero := by
  intro W u vd va vb hc ha hb hle hz hmin q
  have htag : (u.reg va).tag - (u.reg vb).tag < 64 := (Nat.sub_le _ _).trans_lt (u.reg va).tag_lt
  obtain ⟨hfb, hreal⟩ := u.writeValue_tag_realValue vd (fits_tdiv hmin) htag
  refine ⟨_, exec_div_completes u vd hc ha hb hle hz, hfb, ?_⟩
  have hb0 : (u.reg vb).raw.toInt ≠ 0 := BitVec.toInt_zero ▸ BitVec.toInt_ne.2 hz
  have hpos : (0 : ℚ) < 2 ^ ((u.reg va).tag - (u.reg vb).tag) := by positivity
  rw [Fxu.respond_reg, hreal, show q = _ from ValueReg.realValue_div hle]
  refine ⟨?_, ?_, ?_⟩
  · rw [abs_div, abs_div]
    exact div_le_div_of_nonneg_right (abs_tdiv_le hb0) (abs_nonneg _)
  · rw [div_mul_div_comm]
    exact div_nonneg (tdiv_mul_div_nonneg hb0) (mul_self_nonneg _)
  · rw [← sub_div, abs_div, abs_of_pos hpos]
    exact div_lt_div_of_pos_right (abs_div_sub_tdiv_lt hb0) hpos

/-! ### RESCALE -/

/-- `RESCALE`, where the shifted value fits, completes and leaves a value with the immediate as its tag and the same real
value (R62, R63). -/
theorem exec_rescale_fits (vd : RegNum) (hc : u.status.cause = 0) (hv : (u.reg va).valid = true)
    (hle : (u.reg va).tag ≤ imm8.toNat) (hlt : imm8.toNat < W.bits)
    (hfits : fits W ((u.reg va).raw.toInt * 2 ^ (imm8.toNat - (u.reg va).tag))) :
    ∃ t : Fxu W, exec (.rescale vd va imm8) ⟨W, u⟩ = .next ⟨W, t⟩ ∧ t.status.cause = 0 ∧ (t.reg vd).valid = true ∧
      (t.reg vd).tag = imm8.toNat ∧ (t.reg vd).realValue = (u.reg va).realValue := by
  obtain ⟨htag, hreal⟩ := u.writeValue_tag_realValue vd hfits (hlt.trans_le (width_le W))
  refine ⟨_, exec_rescale_completes u vd hc hv hle hlt, hc, ?_⟩
  rw [Fxu.respond_reg, rescaleUp_eq_wrapW, htag, hreal, Fxu.writeValue_reg_self]
  exact ⟨rfl, rfl, (u.reg va).aligned_realValue hle⟩

/-- Settles O44: the shifted value, written whole over the new tag, is the old real value. -/
theorem rescaleKeepsTheRealValue : Obligations.RescaleKeepsTheRealValue := by
  intro W u vd va imm8 hc hv hle hlt hfits
  obtain ⟨t, hexec, _, _, htag, hreal⟩ := exec_rescale_fits vd hc hv hle hlt hfits
  exact ⟨t, hexec, htag, hreal⟩

/-! ### The comparators -/

/-- `CMPEQ` of two values of the same tag (R77). -/
theorem exec_cmpeq_completes (hc : u.status.cause = 0) (ha : (u.reg va).valid = true) (hb : (u.reg vb).valid = true)
    (hfb : (u.reg va).fb = (u.reg vb).fb) :
    exec (.cmpeq va vb) ⟨W, u⟩ = .next ⟨W, (u.setT (rawEqual (u.reg va).raw (u.reg vb).raw)).respond
      (flagWord W (rawEqual (u.reg va).raw (u.reg vb).raw))⟩ := by
  rw [exec, execCmpeq, State.command_running u _ hc, Fxu.compare_of_fb_eq ha hb hfb]

/-- `CMPNE` of two values of the same tag (R78). -/
theorem exec_cmpne_completes (hc : u.status.cause = 0) (ha : (u.reg va).valid = true) (hb : (u.reg vb).valid = true)
    (hfb : (u.reg va).fb = (u.reg vb).fb) :
    exec (.cmpne va vb) ⟨W, u⟩ = .next ⟨W, (u.setT (rawUnequal (u.reg va).raw (u.reg vb).raw)).respond
      (flagWord W (rawUnequal (u.reg va).raw (u.reg vb).raw))⟩ := by
  rw [exec, execCmpne, State.command_running u _ hc, Fxu.compare_of_fb_eq ha hb hfb]

/-- The test of `CMPEQ` is symmetric (R77). -/
theorem rawEqual_comm (a b : BitVec W.bits) : rawEqual a b = rawEqual b a := by simp only [rawEqual, eq_comm]

/-- The test of `CMPNE` is symmetric (R78). -/
theorem rawUnequal_comm (a b : BitVec W.bits) : rawUnequal a b = rawUnequal b a := by
  simp only [rawUnequal, ne_comm]

/-- The tests of the comparators are opposite (R77, R78). -/
theorem rawEqual_eq_not_rawUnequal (a b : BitVec W.bits) : rawEqual a b = !rawUnequal a b := by
  simp [rawEqual, rawUnequal]

/-- Settles O47: the laws are those of the two tests. -/
theorem compareLaws : Obligations.CompareLaws := by
  intro W u va vb hc ha hb hfb
  refine ⟨_, _, exec_cmpeq_completes hc ha hb hfb, exec_cmpne_completes hc ha hb hfb, rawEqual_eq_not_rawUnequal _ _, ?_, ?_,
    ?_⟩
  · rw [exec_cmpeq_completes hc hb ha hfb.symm, rawEqual_comm]
  · rw [exec_cmpne_completes hc hb ha hfb.symm, rawUnequal_comm]
  · rintro rfl
    exact decide_eq_true rfl

/-- Settles O45: `RESCALE` gives the left value the tag of the right one and keeps its real value, so comparing raw values
compares real values. -/
theorem rescaleThenCompareComparesRealValues : Obligations.RescaleThenCompareComparesRealValues := by
  intro W u tmp va vb hc ha hb hne hle hlt hfits
  have himm : ((u.reg vb).fb.setWidth 8).toNat = (u.reg vb).tag := BitVec.toNat_setWidth_of_le (by decide)
  rw [← himm] at hle hlt hfits
  obtain ⟨t, hexec, hcause, hvalid, htag, hreal⟩ := exec_rescale_fits tmp hc ha hle hlt hfits
  have hvb : t.reg vb = u.reg vb := exec_reg_eq hexec (by simpa [Instr.dest] using hne)
  have hsame : (t.reg tmp).tag = (t.reg vb).tag := by rw [htag, himm, hvb]
  refine ⟨t, _, hexec, exec_cmpeq_completes hcause hvalid (hvb ▸ hb) (ValueReg.tag_eq_iff.1 hsame), ?_⟩
  rw [← hreal, ← hvb, ValueReg.realValue_eq_iff hsame]
  exact decide_eq_true_iff

end Sys2Proof.Machine

/-! ## Proofs: what the text means (45_text.md sections 2 and 3)

The largest accumulator (R87), the sign (R82), the length (R91), whole numbers (R92) and the decimal figures (R90). -/

namespace Sys2Proof.Machine

variable {W : Width}

/-! ### The largest accumulator -/

/-- The sum of the terms of all `fb` fraction bits (R87). -/
def allTerms (W : Width) (fb : Nat) : Nat := ∑ k ∈ Finset.range fb, term W (k + 1)

/-- The first `n` bits add up to at most the sum of their terms (R84). -/
theorem scan_le_sum (raw : BitVec W.bits) (fb n : Nat) : scan W raw fb n ≤ ∑ i ∈ Finset.range n, term W (fb - i) := by
  induction n with
  | zero => exact le_rfl
  | succ n ih =>
    rw [scan_succ, Finset.sum_range_succ]
    split <;> omega

/-- The accumulator is at most the sum of all terms (R87). -/
theorem accumulator_le_allTerms (raw : BitVec W.bits) (fb : Nat) : accumulator W raw fb ≤ allTerms W fb :=
  calc accumulator W raw fb ≤ ∑ i ∈ Finset.range fb, term W (fb - i) := scan_le_sum raw fb fb
    _ = ∑ i ∈ Finset.range fb, term W (fb - 1 - i + 1) :=
      Finset.sum_congr rfl fun i hi => by
        have hlt := Finset.mem_range.1 hi
        rw [(by omega : fb - 1 - i + 1 = fb - i)]
    _ = allTerms W fb := Finset.sum_range_reflect (fun k => term W (k + 1)) fb

/-- More fraction bits have more terms (R87). -/
theorem allTerms_mono (W : Width) : Monotone (allTerms W) := fun _ _ h =>
  Finset.sum_le_sum_of_subset (Finset.range_mono h)

/-- The spec's maxima are the sums of all terms of the largest tag (R87, R93). -/
theorem allTerms_largest (W : Width) : allTerms W (W.bits - 1) = largestAccumulator W := by
  cases W <;> decide

/-- The largest value with the largest tag has every fraction bit set and so takes every term (R87). -/
theorem accumulator_intMax (W : Width) :
    accumulator W (BitVec.intMax W.bits) (W.bits - 1) = largestAccumulator W := by cases W <;> decide

/-- Settles O48: the bound on the scan, the sum of all terms, and the largest value with the largest tag, which takes
it. -/
theorem accumulatorNeverCarries : Obligations.AccumulatorNeverCarries := by
  intro W
  refine ⟨fun raw fb hfb => ⟨accumulator_lt raw fb, ?_⟩,
    ⟨BitVec.intMax W.bits, W.bits - 1, Nat.sub_lt (width_pos W) one_pos, accumulator_intMax W⟩⟩
  calc accumulator W raw fb ≤ allTerms W fb := accumulator_le_allTerms raw fb
    _ ≤ allTerms W (W.bits - 1) := allTerms_mono W (Nat.le_sub_one_of_lt hfb)
    _ = largestAccumulator W := allTerms_largest W

/-! ### The sign -/

/-- The integer portion of a value that is not negative is not negative (R83). -/
theorem integerPortion_nonneg {w : Nat} {raw : BitVec w} (h : 0 ≤ raw.toInt) (fb : Nat) : 0 ≤ integerPortion raw fb := by
  rw [integerPortion_eq, if_neg (not_lt.2 h), add_zero]
  exact Int.ediv_nonneg h (by positivity)

/-- The explicit minus sign and the one of the integer portion's numeral exclude each other: a negative value shows exactly
one, any other none (R82). -/
theorem lead_append_sdec {w : Nat} (raw : BitVec w) (fb : Nat) :
    lead raw fb ++ sdec (integerPortion raw fb) =
      (if raw.toInt < 0 then [charMinus] else []) ++ dec (integerPortion raw fb).natAbs := by
  rw [lead_eq, sdec]
  by_cases hneg : raw.toInt < 0
  · by_cases hip : 0 ≤ integerPortion raw fb <;> simp [hneg, hip]
  · simp [hneg, integerPortion_nonneg (not_lt.1 hneg) fb]

/-- The text in its four parts: the sign, the integer, the point, the accumulator (R82 to R88). -/
theorem render_eq_parts (raw : BitVec W.bits) (fb : Nat) :
    render W raw fb = (if raw.toInt < 0 then [charMinus] else []) ++ dec (integerPortion raw fb).natAbs ++ [charPoint] ++
      dec (accumulator W raw fb) := by
  rw [render_eq, lead_append_sdec]

/-- A numeral has at least one digit (R13). -/
theorem dec_ne_nil (n : Nat) : dec n ≠ [] := by
  rcases eq_or_ne n 0 with rfl | hn
  · simp
  · rw [dec_eq_map_charDigit hn]
    simpa [Nat.digits_ne_nil_iff_ne_zero] using hn

/-- No digit is a minus sign (R13). -/
theorem head?_dec_ne_minus (n : Nat) : (dec n).head? ≠ some charMinus := by
  intro h
  obtain ⟨d, hd, hchar⟩ := mem_dec (List.mem_of_head? h)
  have hcode := congrArg BitVec.toNat hchar
  rw [toNat_charDigit hd] at hcode
  have hminus : charMinus.toNat = 0x2D := rfl
  omega

/-- Settles O51: a negative value shows the minus sign first, any other value a digit. -/
theorem textBeginsWithMinusIffNegative : Obligations.TextBeginsWithMinusIffNegative := by
  intro W raw fb
  rw [render_eq_parts]
  by_cases hneg : raw.toInt < 0
  · simp [hneg, charMinus]
  · have hdigit : (dec (integerPortion raw fb).natAbs).head? ≠ some 0x2D#8 := head?_dec_ne_minus _
    simpa [hneg, List.head?_append_of_ne_nil _ (dec_ne_nil _)] using hdigit

/-! ### The length -/

/-- A number below `10^k` has at most `k` digits (R13). -/
theorem length_dec_le {n k : Nat} (hk : 0 < k) (h : n < 10 ^ k) : (dec n).length ≤ k := by
  rcases eq_or_ne n 0 with rfl | hn
  · exact hk
  · rw [dec_eq_map_charDigit hn, List.length_reverse, List.length_map]
    exact (Nat.digits_length_le_iff (by omega) n).2 h

/-- The integer portion is at most the magnitude (R83). -/
theorem natAbs_integerPortion_le {w : Nat} (raw : BitVec w) (fb : Nat) : (integerPortion raw fb).natAbs ≤ mag raw := by
  have hdiv : (raw.toInt / 2 ^ fb).natAbs ≤ mag raw := Int.natAbs_ediv_le_natAbs _ _
  rw [integerPortion_eq]
  split
  next hneg =>
    have hquot : raw.toInt / 2 ^ fb < 0 := Int.ediv_neg_of_neg_of_pos hneg (by positivity)
    omega
  next => rwa [add_zero]

/-- `D`, the number of decimal digits of `2^(W-1) - 1` (R91). -/
def integerDigits : Width → Nat
  | .w8 => 3
  | .w16 => 5
  | .w32 => 10
  | .w64 => 19

/-- `D` is not zero, and `D` digits are enough for `2^(W-1)` too (R91). -/
theorem integerDigits_bounds (W : Width) : 0 < integerDigits W ∧ 2 ^ (W.bits - 1) < 10 ^ integerDigits W := by
  cases W <;> decide

/-- The bound is that of R91: a sign, `D` integer digits, the point, `P` fraction digits. -/
theorem longestText_eq (W : Width) : longestText W = 1 + integerDigits W + 1 + precision W := by cases W <;> rfl

/-- Settles O52: the parts of the text have at least 0, 1, 1, 1 and at most 1, `D`, 1, `P` characters. -/
theorem textLengthIsBounded : Obligations.TextLengthIsBounded := by
  intro W raw fb _
  obtain ⟨hpos, hbound⟩ := integerDigits_bounds W
  have hip : (integerPortion raw fb).natAbs < 10 ^ integerDigits W :=
    ((natAbs_integerPortion_le raw fb).trans (mag_le raw)).trans_lt hbound
  have hint := length_dec_le hpos hip
  have hfrac := length_dec_le (precision_pos W) (accumulator_lt raw fb)
  have hint' := List.length_pos_iff.2 (dec_ne_nil (integerPortion raw fb).natAbs)
  have hfrac' := List.length_pos_iff.2 (dec_ne_nil (accumulator W raw fb))
  have hsign : (if raw.toInt < 0 then [charMinus] else []).length ≤ 1 := by split <;> decide
  simp only [render_eq_parts, longestText_eq, List.length_append, List.length_singleton]
  omega

/-! ### Whole numbers -/

/-- A value that is not negative reads the same signed and unsigned (R10). -/
theorem toInt_eq_toNat_of_nonneg {w : Nat} {raw : BitVec w} (h : 0 ≤ raw.toInt) : raw.toInt = raw.toNat :=
  BitVec.toInt_eq_toNat_of_lt (BitVec.toInt_pos_iff.1 h)

/-- The integer portion of a value that is not negative (R83). -/
theorem integerPortion_of_nonneg {w : Nat} {raw : BitVec w} (h : 0 ≤ raw.toInt) (fb : Nat) :
    integerPortion raw fb = (raw.toNat / 2 ^ fb : Nat) := by
  rw [integerPortion_eq, if_neg (not_lt.2 h), add_zero, toInt_eq_toNat_of_nonneg h]
  push_cast
  rfl

/-- With no bit selected the accumulator stays 0 (R84). -/
theorem accumulator_of_selectedBits_zero {raw : BitVec W.bits} {fb : Nat} (h : selectedBits raw fb = 0) :
    accumulator W raw fb = 0 := by
  rw [accumulator_eq_selectedTerms, selectedTerms, h]
  simp

/-- A whole number that is not negative renders as its integer and `.0` (R92). -/
theorem render_of_whole {raw : BitVec W.bits} {fb : Nat} (h : 0 ≤ raw.toInt) (hlow : raw.toNat % 2 ^ fb = 0) :
    render W raw fb = dec (raw.toNat / 2 ^ fb) ++ [0x2E#8, 0x30#8] := by
  have hneg : ¬raw.toInt < 0 := not_lt.2 h
  have hsel : selectedBits raw fb = 0 := by rw [selectedBits, if_neg hneg, hlow]
  rw [render_eq_parts, if_neg hneg, integerPortion_of_nonneg h, Int.natAbs_natCast, accumulator_of_selectedBits_zero hsel,
    dec_zero, List.nil_append, List.append_assoc]
  rfl

/-- Settles O53: a whole number selects no fraction bit, and zero is a whole number at every tag. -/
theorem wholeNumbersRenderWithPointZero : Obligations.WholeNumbersRenderWithPointZero := by
  refine ⟨fun W raw fb => render_of_whole, fun W fb => ?_⟩
  rw [render_of_whole (by simp) (by simp)]
  simp

/-! ### The decimal figures -/

/-- `10^P` is a multiple of `2^k` for `k` up to `P`, so that the term is exact (R85). -/
theorem term_mul_two_pow {k : Nat} (h : k ≤ precision W) : term W k * 2 ^ k = 10 ^ precision W :=
  Nat.div_mul_cancel ((pow_dvd_pow 2 h).trans (pow_dvd_pow_of_dvd (by decide) _))

/-- With at most `P` fraction bits, the first `n` bits add up to exactly the share of `10^P` that the selected bits among
them stand for (R84, R85). -/
theorem scan_mul_two_pow (raw : BitVec W.bits) {fb n : Nat} (hP : fb ≤ precision W) (hn : n ≤ fb) :
    scan W raw fb n * 2 ^ fb = 10 ^ precision W * (selectedBits raw fb % 2 ^ n) := by
  induction n with
  | zero => simp [scan, Nat.mod_one]
  | succ n ih =>
    have hterm : term W (fb - n) * 2 ^ fb = 10 ^ precision W * 2 ^ n := by
      rw [← term_mul_two_pow (by omega : fb - n ≤ precision W), mul_assoc, ← pow_add, Nat.sub_add_cancel (by omega)]
    have hbit : selectedBits raw fb / 2 ^ n % 2 = if contributes raw n then 1 else 0 := by
      rw [← Nat.toNat_testBit, testBit_selectedBits raw hn]
      cases contributes raw n <;> rfl
    rw [scan_succ, add_mul, ih (by omega), Nat.mod_pow_succ, hbit, mul_add]
    split
    · rw [hterm, mul_one]
    · simp

/-- The selected bits are `fb` bits (R84). -/
theorem selectedBits_lt {w : Nat} (raw : BitVec w) (fb : Nat) : selectedBits raw fb < 2 ^ fb := by
  have hpos := Nat.two_pow_pos fb
  rw [selectedBits]
  split
  · omega
  · exact Nat.mod_lt _ hpos

/-- With at most `P` fraction bits, the accumulator is exactly the share of `10^P` that the selected bits stand for
(R85, R90). -/
theorem accumulator_mul_two_pow (raw : BitVec W.bits) {fb : Nat} (hP : fb ≤ precision W) :
    accumulator W raw fb * 2 ^ fb = 10 ^ precision W * selectedBits raw fb := by
  rw [accumulator, scan_mul_two_pow raw hP le_rfl, Nat.mod_eq_of_lt (selectedBits_lt raw fb)]

/-- `P` is at most `W` (R8). -/
theorem precision_le_bits (W : Width) : precision W ≤ W.bits := by cases W <;> decide

/-- The low `fb` bits are the remainder of the signed reading too (R10). -/
theorem toNat_mod_two_pow {w : Nat} (raw : BitVec w) {fb : Nat} (h : fb ≤ w) :
    ((raw.toNat % 2 ^ fb : Nat) : Int) = raw.toInt % 2 ^ fb := by
  have hdvd : (2 ^ fb : Int) ∣ ((2 ^ w : Nat) : Int) := by exact_mod_cast pow_dvd_pow 2 h
  rw [BitVec.toInt_eq_toNat_bmod, ← Int.emod_emod_of_dvd _ hdvd, Int.bmod_emod, Int.emod_emod_of_dvd _ hdvd]
  push_cast
  rfl

/-- The selected bits of a value that is not negative are the remainder by `2^fb` (R84). -/
theorem selectedBits_of_nonneg {w : Nat} {raw : BitVec w} (h : 0 ≤ raw.toInt) {fb : Nat} (hfb : fb ≤ w) :
    (selectedBits raw fb : Int) = raw.toInt % 2 ^ fb := by
  rw [selectedBits, if_neg (not_lt.2 h), toNat_mod_two_pow raw hfb]

/-- The selected bits of a negative value are the complement of the remainder by `2^fb` (R84). -/
theorem selectedBits_of_neg {w : Nat} {raw : BitVec w} (h : raw.toInt < 0) {fb : Nat} (hfb : fb ≤ w) :
    (selectedBits raw fb : Int) = 2 ^ fb - 1 - raw.toInt % 2 ^ fb := by
  have hlt : raw.toNat % 2 ^ fb < 2 ^ fb := Nat.mod_lt _ (Nat.two_pow_pos fb)
  have hpow : ((2 ^ fb : Nat) : Int) = 2 ^ fb := by push_cast; rfl
  rw [selectedBits, if_pos h, ← toNat_mod_two_pow raw hfb]
  omega

/-- Settles O54: the accumulator is the exact share of the selected bits, which with the integer portion rebuild the value
of a number that is not negative, and for a negative one the complement of its raw value. -/
theorem textFiguresAreExactUpToPrecision : Obligations.TextFiguresAreExactUpToPrecision := by
  intro W raw fb hP
  have hacc : (accumulator W raw fb : Int) * 2 ^ fb = 10 ^ precision W * selectedBits raw fb :=
    mod_cast accumulator_mul_two_pow raw hP
  have hfb : fb ≤ W.bits := hP.trans (precision_le_bits W)
  have hsplit : 2 ^ fb * (raw.toInt / 2 ^ fb) + raw.toInt % 2 ^ fb = raw.toInt := Int.mul_ediv_add_emod _ _
  constructor
  · intro h
    rw [selectedBits_of_nonneg h hfb] at hacc
    rw [integerPortion_eq, if_neg (not_lt.2 h)]
    linear_combination hacc + 10 ^ precision W * hsplit
  · intro h
    rw [selectedBits_of_neg h hfb] at hacc
    rw [integerPortion_eq, if_pos h]
    linear_combination hacc - 10 ^ precision W * hsplit

end Sys2Proof.Machine

/-! ## Proofs: the statements of reset and the step (70_reset_and_hazards.md)

The reset event (R111), the idle step (log 6) and the presented table word (log 7). -/

namespace Sys2Proof.Machine

/-- Settles O8: a reset is a step of its own and keeps only what the host will do next. -/
theorem resetEventResetsTheUnit : Obligations.ResetEventResetsTheUnit := fun _ u _ h => step_rst u h

/-- Settles O9: with nothing presented a step leaves the machine as it is. -/
theorem nothingPresentedNothingChanges : Obligations.NothingPresentedNothingChanges := fun _ u h => step_nil u h

/-- A table word that the table decoder reads as a command is that command for the decoder (R47, R49). -/
theorem decode_of_decodeTableWord {nbits w : Nat} {i : Instr} (h : decodeTableWord nbits w = some i) :
    decode (BitVec.ofNat 32 (w % 2 ^ nbits)) = .ok i := by
  rw [decodeTableWord] at h
  split at h
  next hdecode => rw [hdecode, Option.some_inj.1 h]
  next => cases h

/-- Settles O11: the word placed ahead of all others is the one the next step decodes and runs. -/
theorem fetchWordIsRunNext : Obligations.FetchWordIsRunNext := by
  intro W u w i h
  have hword : BitVec.ofNat 32 (w % 2 ^ 32) = BitVec.ofNat 32 w :=
    BitVec.eq_of_toNat_eq (by simp)
  rw [State.withFetchWord, State.presentNext, step_legal _ rfl (decode_of_decodeTableWord h), hword]
  rfl

end Sys2Proof.Machine
